-- ==== Sys2Proof/Word.lean ====
section
/-! DEFINITION. The two widths of the hardware: 32-bit words and bytes (00_scope.md R6, R9). -/

namespace Sys2Proof

/-- WORD: 32 bits, unsigned, bit 0 least significant (R6, R9). -/
abbrev Word := BitVec 32

/-- One byte of a byte string or of MSG RAM (R9, R31). -/
abbrev Byte := BitVec 8

end Sys2Proof
end

