-- ==== Sys2Proof/Config.lean ====
section
/-! DEFINITION. The open parameters of 00_scope.md R7, as the machine after reset has them, and the model's free
values. Nothing in Lean can tell the value of an `opaque` constant, so a theorem holds for every choice of them.

The fixed parameters of R6 are constants of the files that use them (`Machine/BlockEngine.lean`,
`Machine/Codec.lean`). The open parameter LATENCY is the list of turns in State (assumption log 4). -/

namespace Sys2Proof

/-- Which 4096-byte page of the bus the engine sits on (R7: BASE is 4096-byte aligned; log 2). -/
opaque Config.basePage : Nat

/-- BASE, the bus address of offset 0x000 of the register block (R7, D8). -/
def Config.base : Nat := 4096 * Config.basePage

/-- Chooses MSG_BYTES among its legal values (log 1). -/
opaque Config.msgBytesChoice : Nat

/-- MSG_BYTES, the size of MSG RAM in bytes: a multiple of 4 with 16 <= MSG_BYTES <= 0x7FFFF000, every such
value being possible (R7, D16; log 1). -/
def Config.msgBytes : Nat := 4 * (Config.msgBytesChoice % 0x1FFFFBFD + 4)

/-- RNG: byte `i` of the random source's answer to its request number `k` (R7, R106, D7; log 3). A free value. -/
opaque Config.rngByte : Nat → Nat → Byte

/-- Latch number `i` (LOP, LK[0..3], LV0, LV1, LSRC, LSLEN, LDST) at the `k`-th moment at which the latches
become unspecified (R32, R113, U5; log 5). A free value. -/
opaque Config.unspecifiedLatchWord : Nat → Nat → Word

end Sys2Proof
end

