-- ==== Sys2Proof/Syntax.lean ====
section
/-! DEFINITION. The instruction set: the four commands of spec/opcode_table.json (30_encoding.md R54). -/

namespace Sys2Proof

/-- The four commands. A command word has no register, immediate or mode field (R53, R61, R62), so no
constructor has an operand: every operand is a latched register (R60). -/
inductive Instr where
  /-- ENCB, encrypt one block (40_block_engine.md R73). -/
  | encb
  /-- DECB, decrypt one block (40_block_engine.md R74). -/
  | decb
  /-- MENC, encrypt a message (41_message_codec.md R94). -/
  | menc
  /-- MDEC, decrypt a message (41_message_codec.md R95). -/
  | mdec
deriving DecidableEq, Repr

end Sys2Proof
end

