-- ==== Sys2Proof/Machine/State.lean ====
section
/-! DEFINITION. The machine's state as plain data: the registers of 10_state.md R15, MSG RAM (R31), the hidden
latches (R32), and the model's own record of the agents that act on the engine (R8, R48). -/

namespace Sys2Proof.Machine

/-- A key: the words k0 .. k3 of KEY0 .. KEY3 or of LK[0..3] (R6, R23, R32). -/
structure Key where
  k0 : Word
  k1 : Word
  k2 : Word
  k3 : Word
deriving DecidableEq, Repr

/-- A block: 64 bits as the two words v0, v1 (R6; log 14). -/
structure Block where
  v0 : Word
  v1 : Word
deriving DecidableEq, Repr

/-- The fields of STATUS (R17). Bits 31:8 are reserved and read as 0, so they are not stored (log 18). -/
structure Status where
  /-- Bit 0: 1 from the issue of a command until its completion (R18). -/
  busy : Bool
  /-- Bit 1: 1 once the last issued command has completed (R19). -/
  done : Bool
  /-- Bit 2: 1 if the last completed command ended with an error (R20). -/
  err : Bool
  /-- Bit 3: 1 if a CMD write was discarded since the last issue (R21). -/
  ovr : Bool
  /-- Bits 7:4: the error code of the last completed command (R22). -/
  ecode : BitVec 4
deriving DecidableEq, Repr

/-- The hidden latches, copied at issue (R32). -/
structure Latches where
  /-- LOP, the command word. -/
  lop : Word
  /-- LK[0..3]. -/
  lk : Key
  /-- LV0. -/
  lv0 : Word
  /-- LV1. -/
  lv1 : Word
  /-- LSRC. -/
  lsrc : Word
  /-- LSLEN. -/
  lslen : Word
  /-- LDST. -/
  ldst : Word
deriving DecidableEq, Repr

/-- MSG RAM: the bytes written since reset, by offset (R31). An offset that is not listed has its written mark
false and no value (R114; log 6). -/
abbrev Memory := List Host.Cell

/-- The registers of the register map, at offsets 0x000 to 0x034 (R15). -/
inductive Reg where
  | cmd | status | key0 | key1 | key2 | key3 | din0 | din1 | dout0 | dout1 | src | slen | dst | dlen
deriving DecidableEq, Repr

/-- The error codes a command can raise (60_exceptions.md R98). -/
inductive ErrorCode where
  /-- 0x1, allocated and never produced (log 20). -/
  | invalidKeyLength
  /-- 0x2, raised by MDEC (R88). -/
  | invalidLength
  /-- 0x3, raised by MDEC (R89, R90). -/
  | integrityCheckFailed
  /-- 0x4, raised by an illegal command word (R55). -/
  | badCommand
  /-- 0x5, raised by MENC and MDEC (R93). -/
  | rangeError
deriving DecidableEq, Repr

/-- One bus transaction: a read or a write of `width` bits at bus address `addr` (30_encoding.md R66). -/
inductive BusAccess where
  | read (width addr : Nat)
  | write (width addr data : Nat)
deriving DecidableEq, Repr

/-- The admitted host accesses (20_memory.md R39). `o` is a byte offset from BASE, `a` an offset in MSG RAM. -/
inductive HostAccess where
  | regRead (o : Nat)
  | regWrite (o : Nat) (w : Word)
  | msgReadB (a : Nat)
  | msgWriteB (a : Nat) (b : Byte)
  | msgReadW (a : Nat)
  | msgWriteW (a : Nat) (w : Word)
deriving DecidableEq, Repr

/-- What a host read returned (R39). -/
inductive Response where
  | word (w : Word)
  | byte (b : Byte)
deriving DecidableEq, Repr

/-- One line of a host program (30_encoding.md R64): a bus transaction, or `bbs REG, bit, label`, a 32-bit read
of the register at offset `o` that continues at line `target` if that bit of the value is 1. DESIGN CHOICE: a line is its
transaction (R66), also where its register offset is 0x1000 or more (log 21). -/
inductive HostLine where
  | bus (t : BusAccess)
  | bbs (o bit target : Nat)
deriving DecidableEq, Repr

/-- A bus master: its program, the index of its next line, and what its reads returned, latest first
(R8, R64, R107; log 7). -/
structure HostAgent where
  program : List HostLine
  line : Nat
  responses : List Response
deriving DecidableEq, Repr

/-- Who makes the next atomic step (20_memory.md R48, 60_exceptions.md R104; log 4). -/
inductive Turn where
  /-- The engine performs, if BUSY = 1 (R58). -/
  | engine
  /-- Host number `k` makes its next access (R39). -/
  | host (k : Nat)
  /-- The platform asserts reset (R113). -/
  | reset
deriving DecidableEq, Repr

/-- The open parameters of one machine (00_scope.md R7). No step changes them. They stand in the state so that a
statement about every state is one about every legal choice of them (log 1, 2). -/
structure Params where
  /-- BASE, the bus address of offset 0x000 (D8). -/
  base : Nat
  /-- MSG_BYTES, the size of MSG RAM in bytes (D16). -/
  msgBytes : Nat
deriving DecidableEq, Repr

/-- The constraints of R7: BASE is 4096-byte aligned; MSG_BYTES is a multiple of 4 from 16 to 0x7FFFF000. -/
def Params.legal (p : Params) : Bool :=
  decide (p.base % 4096 = 0 ∧ p.msgBytes % 4 = 0 ∧ 16 ≤ p.msgBytes ∧ p.msgBytes ≤ 0x7FFFF000)

/-- The whole state. -/
structure State where
  /-- The machine's parameters, not its state: no step changes them (R7; log 1, 2). -/
  params : Params
  /-- CMD, the last accepted command word (R16). -/
  cmd : Word
  /-- STATUS (R17). -/
  status : Status
  /-- KEY0 .. KEY3 (R23). -/
  key : Key
  /-- DIN0 (R24). -/
  din0 : Word
  /-- DIN1 (R24). -/
  din1 : Word
  /-- DOUT0 (R25). -/
  dout0 : Word
  /-- DOUT1 (R25). -/
  dout1 : Word
  /-- SRC (R26). -/
  src : Word
  /-- SLEN (R27). -/
  slen : Word
  /-- DST (R28). -/
  dst : Word
  /-- DLEN (R29). -/
  dlen : Word
  /-- MSG RAM (R31). -/
  msg : Memory
  /-- The hidden latches (R32). -/
  latches : Latches
  /-- The model's own: how many requests the random source has answered (R106; log 3). -/
  draws : Nat
  /-- The model's own: how many times the latches were left unspecified (R32, U5; log 5). -/
  latchDraws : Nat
  /-- The model's own: the bus masters (R8; log 7). -/
  hosts : List HostAgent
  /-- The model's own: who moves next, in order (R48; log 4). -/
  turns : List Turn
deriving DecidableEq, Repr

/-- Why the machine stops: the two uses of `fault(reason)` (00_scope.md R11). All are safe: the model stops
where the spec says a model must, and nothing after can be proved. -/
inductive Fault where
  /-- A host access to MSG RAM while MENC or MDEC is in flight (70_reset_and_hazards.md R118). Raised by
  `hostAccess`. Safe. -/
  | msgAccessInFlight
  /-- A host read of a MSG RAM byte never written since reset (R114). Raised by `hostAccess`. Safe. -/
  | hostReadUnwritten
  /-- MENC's or MDEC's MemRead covers a MSG RAM byte never written since reset (R41, R114). Raised by
  `execMenc` and `execMdec`. Safe. -/
  | engineReadUnwritten
deriving DecidableEq, Repr

/-- What has no step. All are safe: the model stops where the spec says it has no step for the access. -/
inductive Refusal where
  /-- An instruction without a meaning yet. No arm of `exec` answers it. Safe. -/
  | notModelled (mnemonic : String)
  /-- A bus address outside the window of 0x1000 + MSG_BYTES bytes at BASE (20_memory.md R38). Raised by
  `decodeAccess`. Safe. -/
  | outsideWindow
  /-- An access of a width the region does not admit (R44). Raised by `decodeAccess`. Safe. -/
  | widthNotAdmitted
  /-- A 32-bit access at an offset that is no multiple of 4 (R43). Raised by `decodeAccess`. Safe. -/
  | misaligned
deriving DecidableEq, Repr

/-- Latches whose values are unspecified: free values, the `k`-th draw of them (R32, R113, U5; log 5). -/
def Latches.unspecified (k : Nat) : Latches :=
  { lop := Config.unspecifiedLatchWord k 0
    lk := { k0 := Config.unspecifiedLatchWord k 1, k1 := Config.unspecifiedLatchWord k 2
            k2 := Config.unspecifiedLatchWord k 3, k3 := Config.unspecifiedLatchWord k 4 }
    lv0 := Config.unspecifiedLatchWord k 5
    lv1 := Config.unspecifiedLatchWord k 6
    lsrc := Config.unspecifiedLatchWord k 7
    lslen := Config.unspecifiedLatchWord k 8
    ldst := Config.unspecifiedLatchWord k 9 }

/-- The machine right after power-on reset (70_reset_and_hazards.md R113): every register 0x00000000, so STATUS
is idle; every MSG RAM byte unwritten; the latches unspecified (log 5). No host and no turn is pending: reset
brings no program (log 4, 7, 9). -/
def State.reset : State :=
  { params := { base := Config.base, msgBytes := Config.msgBytes }
    cmd := 0
    status := { busy := false, done := false, err := false, ovr := false, ecode := 0 }
    key := { k0 := 0, k1 := 0, k2 := 0, k3 := 0 }
    din0 := 0
    din1 := 0
    dout0 := 0
    dout1 := 0
    src := 0
    slen := 0
    dst := 0
    dlen := 0
    msg := []
    latches := Latches.unspecified 0
    draws := 0
    latchDraws := 1
    hosts := []
    turns := [] }

end Sys2Proof.Machine
end

