-- ==== Sys2Proof/Machine/Flags.lean ====
section
/-! DEFINITION. STATUS: its bit layout and every way it changes (10_state.md R17 to R22; 30_encoding.md R56,
R57, R59). The arithmetic sets no flag (R35, R72). -/

namespace Sys2Proof.Machine

/-- The code of an error in STATUS.ECODE (60_exceptions.md R98). -/
def ErrorCode.code : ErrorCode → BitVec 4
  | .invalidKeyLength => 0x1
  | .invalidLength => 0x2
  | .integrityCheckFailed => 0x3
  | .badCommand => 0x4
  | .rangeError => 0x5

/-- STATUS.ECODE at completion: the error's code, or 0 for success (R22, R98). -/
def ecodeOf : Option ErrorCode → BitVec 4
  | none => 0x0
  | some e => e.code

/-- STATUS as the host reads it: bit 0 BUSY, bit 1 DONE, bit 2 ERR, bit 3 OVR, bits 7:4 ECODE, bits 31:8
zero (R17). -/
def Status.toWord (t : Status) : Word :=
  0#24 ++ t.ecode ++ BitVec.ofBool t.ovr ++ BitVec.ofBool t.err ++ BitVec.ofBool t.done ++ BitVec.ofBool t.busy

/-- STATUS right after issue: BUSY is 1 and every other field 0 (R56). -/
def Status.issued : Status :=
  { busy := true, done := false, err := false, ovr := false, ecode := 0 }

/-- A CMD write while BUSY = 1 sets OVR and nothing else (R57, R21). -/
def Status.overrun (t : Status) : Status := { t with ovr := true }

/-- Completion: BUSY <- 0, DONE <- 1, ERR and ECODE by the outcome, OVR unchanged (R59). -/
def Status.completed (outcome : Option ErrorCode) (t : Status) : Status :=
  { busy := false, done := true, err := outcome.isSome, ovr := t.ovr, ecode := ecodeOf outcome }

end Sys2Proof.Machine
end

