-- ==== Sys2Proof/Machine/Operands.lean ====
section
/-! DEFINITION. Byte order (20_memory.md R40), the register map (10_state.md R15) with each register's access
kind, and the latching of operands at issue (R32). -/

namespace Sys2Proof.Machine

/-! ### Byte order -/

/-- `BE32`: four bytes as a word, the first one bits 31:24 (R40). -/
def be32 (b0 b1 b2 b3 : Byte) : Word :=
  b0.setWidth 32 <<< 24 ||| b1.setWidth 32 <<< 16 ||| b2.setWidth 32 <<< 8 ||| b3.setWidth 32

/-- `UNBE32`: a word as four bytes, bits 31:24 first (R40). -/
def unbe32 (w : Word) : List Byte :=
  [w.extractLsb' 24 8, w.extractLsb' 16 8, w.extractLsb' 8 8, w.extractLsb' 0 8]

/-- The 8-byte string of a block: `UNBE32(v0) || UNBE32(v1)` (R40). -/
def Block.toBytes (b : Block) : List Byte := unbe32 b.v0 ++ unbe32 b.v1

/-- Consecutive 8-byte groups of a byte string as blocks, the first byte of each group bits 31:24 of v0
(R40, R41). Fewer than 8 bytes left over make no block; no command has any (R83, R88). -/
def blocksOf : List Byte → List Block
  | b0 :: b1 :: b2 :: b3 :: b4 :: b5 :: b6 :: b7 :: rest =>
    { v0 := be32 b0 b1 b2 b3, v1 := be32 b4 b5 b6 b7 } :: blocksOf rest
  | _ => []

/-- The concatenation of blocks as a byte string (R86, R92). -/
def bytesOf (bs : List Block) : List Byte := bs.flatMap Block.toBytes

/-- XOR of two 8-byte strings, word by word (R10; log 14). -/
def Block.xor (a b : Block) : Block := { v0 := a.v0 ^^^ b.v0, v1 := a.v1 ^^^ b.v1 }

/-- `zeros(8)` (R9). -/
def Block.zero : Block := { v0 := 0, v1 := 0 }

/-! ### The register map -/

/-- The register at a byte offset from BASE; none at a reserved offset (R15, R30). -/
def Reg.ofOffset : Nat → Option Reg
  | 0x000 => some .cmd
  | 0x004 => some .status
  | 0x008 => some .key0
  | 0x00C => some .key1
  | 0x010 => some .key2
  | 0x014 => some .key3
  | 0x018 => some .din0
  | 0x01C => some .din1
  | 0x020 => some .dout0
  | 0x024 => some .dout1
  | 0x028 => some .src
  | 0x02C => some .slen
  | 0x030 => some .dst
  | 0x034 => some .dlen
  | _ => none

/-- The byte offset of a register from BASE (R15). -/
def Reg.offset : Reg → Nat
  | .cmd => 0x000
  | .status => 0x004
  | .key0 => 0x008
  | .key1 => 0x00C
  | .key2 => 0x010
  | .key3 => 0x014
  | .din0 => 0x018
  | .din1 => 0x01C
  | .dout0 => 0x020
  | .dout1 => 0x024
  | .src => 0x028
  | .slen => 0x02C
  | .dst => 0x030
  | .dlen => 0x034

/-- What a host reads from a register: its value, but 0 from the write-only KEY0..KEY3 (R15, R23). -/
def State.readReg (s : State) : Reg → Word
  | .cmd => s.cmd
  | .status => s.status.toWord
  | .key0 => 0
  | .key1 => 0
  | .key2 => 0
  | .key3 => 0
  | .din0 => s.din0
  | .din1 => s.din1
  | .dout0 => s.dout0
  | .dout1 => s.dout1
  | .src => s.src
  | .slen => s.slen
  | .dst => s.dst
  | .dlen => s.dlen

/-- A register read at an offset; a reserved offset reads 0 (R39, R45). -/
def regRead (o : Nat) (s : State) : Word :=
  match Reg.ofOffset o with
  | some r => s.readReg r
  | none => 0

/-! ### Operands -/

/-- The copies that issue makes of the command word and of the operand registers (R32, R56). -/
def latchOperands (w : Word) (s : State) : Latches :=
  { lop := w, lk := s.key, lv0 := s.din0, lv1 := s.din1, lsrc := s.src, lslen := s.slen, ldst := s.dst }

/-- The block a block command reads: LV0, LV1 (R60). -/
def Latches.block (l : Latches) : Block := { v0 := l.lv0, v1 := l.lv1 }

/-- LSRC as an unsigned integer (R61). -/
def Latches.srcAt (l : Latches) : Nat := l.lsrc.toNat

/-- LSLEN as an unsigned integer (R61). -/
def Latches.len (l : Latches) : Nat := l.lslen.toNat

/-- LDST as an unsigned integer (R61). -/
def Latches.dstAt (l : Latches) : Nat := l.ldst.toNat

end Sys2Proof.Machine
end

