-- ==== Sys2Proof/Machine/BlockEngine.lean ====
section
/-! DEFINITION. The Block Engine's functions: the round function, TEA_Enc and TEA_Dec (40_block_engine.md R67
to R72, R75). -/

namespace Sys2Proof.Machine

/-- DELTA (R6, R67). -/
def DELTA : Word := 0x9E3779B9

/-- DSUM0 = DELTA * 32 mod 2^32 (R6, R70). -/
def DSUM0 : Word := 0xC6EF3720

/-- CYCLES, two Feistel rounds each (R6). -/
def CYCLES : Nat := 32

/-- The round function F: logical shifts, wrapping sums, XOR (R68, R10). -/
def roundF (v ka kb s : Word) : Word := ((v <<< 4) + ka) ^^^ (v + s) ^^^ ((v >>> 5) + kb)

/-- The engine's working state inside one block operation: the accumulator `sum` and the block (R33). -/
structure TeaWork where
  sum : Word
  v0 : Word
  v1 : Word
deriving DecidableEq, Repr

/-- One encryption cycle: sum, then v0, then v1 from the new v0 (R69). (DELTA stands first in the sum, so that
Lean's kernel never counts it down.) -/
def encCycle (k : Key) (t : TeaWork) : TeaWork :=
  let sum := DELTA + t.sum
  let v0 := t.v0 + roundF t.v1 k.k0 k.k1 sum
  let v1 := t.v1 + roundF v0 k.k2 k.k3 sum
  { sum := sum, v0 := v0, v1 := v1 }

/-- One decryption cycle: v1, then v0 from the new v1, then sum (R70). -/
def decCycle (k : Key) (t : TeaWork) : TeaWork :=
  let v1 := t.v1 - roundF t.v0 k.k2 k.k3 t.sum
  let v0 := t.v0 - roundF v1 k.k0 k.k1 t.sum
  { sum := t.sum - DELTA, v0 := v0, v1 := v1 }

/-- `n` encryption cycles. -/
def encCycles (k : Key) : Nat → TeaWork → TeaWork
  | 0, t => t
  | n + 1, t => encCycles k n (encCycle k t)

/-- `n` decryption cycles. -/
def decCycles (k : Key) : Nat → TeaWork → TeaWork
  | 0, t => t
  | n + 1, t => decCycles k n (decCycle k t)

/-- The block of a working state. -/
def TeaWork.block (t : TeaWork) : Block := { v0 := t.v0, v1 := t.v1 }

/-- TEA_Enc: 32 cycles from sum = 0 (R69). -/
def teaEnc (k : Key) (b : Block) : Block :=
  (encCycles k CYCLES { sum := 0, v0 := b.v0, v1 := b.v1 }).block

/-- TEA_Dec: 32 cycles from sum = DSUM0 (R70). -/
def teaDec (k : Key) (b : Block) : Block :=
  (decCycles k CYCLES { sum := DSUM0, v0 := b.v0, v1 := b.v1 }).block

end Sys2Proof.Machine
end

