-- ==== Sys2Proof/Machine/Codec.lean ====
section
/-! DEFINITION. The Message Codec's functions: framing, double chaining, unframing (41_message_codec.md R79 to
R92). A block stands for an 8-byte string under the byte order of 20_memory.md R40, so EncBlk and DecBlk (R75)
are `teaEnc` and `teaDec` on blocks (log 14). -/

namespace Sys2Proof.Machine

/-- The random source's answer to one request, byte by byte; `RngDraw(n)` is its bytes 0 to n-1 (R106; log 15). -/
abbrev Draw := Nat → Byte

/-- The byte string `RngDraw(n)` returned (R106). -/
def Draw.bytes (rnd : Draw) (n : Nat) : List Byte := (List.range n).map rnd

/-! ### Framing -/

/-- SaltLen(n) (R79). -/
def saltLen (n : Nat) : Nat := (8 - n % 8) % 8

/-- L, the length of the frame and of the ciphertext of an n-byte plaintext (R83). -/
def frameLen (n : Nat) : Nat := n + 8 + saltLen n

/-- The header byte: r0's bits 7:3 and the salt length in bits 2:0 (R80). -/
def headerByte (r0 : Byte) (s : Nat) : Byte := (r0 &&& 0xF8) ||| BitVec.ofNat 8 s

/-- The s salt bytes: bytes 1 .. s of the draw (R81). -/
def saltBytes (rnd : Draw) (s : Nat) : List Byte := (rnd.bytes (1 + s)).drop 1

/-- Frame(P, rnd): header, salt, 7 zero-check bytes, plaintext, and no trailing padding (R82). -/
def frame (p : List Byte) (rnd : Draw) : List Byte :=
  headerByte (rnd 0) (saltLen p.length) ::
    (saltBytes rnd (saltLen p.length) ++ (List.replicate 7 0 ++ p))

/-! ### Chaining -/

/-- The chain state PP and PC (R84). -/
structure Chain where
  pp : Block
  pc : Block
deriving DecidableEq, Repr

/-- The chain state at the start of a message (R84). -/
def Chain.start : Chain := { pp := Block.zero, pc := Block.zero }

/-- ChainEnc on one frame block: the ciphertext block and the next chain state (R85). -/
def chainEncStep (k : Key) (c : Chain) (p : Block) : Block × Chain :=
  let x := p.xor c.pc
  let out := teaEnc k (x.xor c.pp)
  (out, { pp := x, pc := out })

/-- ChainDec on one ciphertext block: the frame block and the next chain state (R87). -/
def chainDecStep (k : Key) (c : Chain) (b : Block) : Block × Chain :=
  let x := (teaDec k b).xor c.pp
  (x.xor c.pc, { pp := x, pc := b })

/-- ChainEnc over the frame's blocks in order (R86). -/
def chainEnc (k : Key) : Chain → List Block → List Block
  | _, [] => []
  | c, p :: ps => (chainEncStep k c p).1 :: chainEnc k (chainEncStep k c p).2 ps

/-- ChainDec over the ciphertext's blocks in order (R92). -/
def chainDec (k : Key) : Chain → List Block → List Block
  | _, [] => []
  | c, b :: bs => (chainDecStep k c b).1 :: chainDec k (chainDecStep k c b).2 bs

/-- CodecEnc(P, LK, rnd) (R86). -/
def codecEnc (k : Key) (p : List Byte) (rnd : Draw) : List Byte :=
  bytesOf (chainEnc k Chain.start (blocksOf (frame p rnd)))

/-! ### Unframing -/

/-- The length check: L = 0 or L mod 8 != 0 is INVALID_LENGTH (R88). -/
def lengthInvalid (l : Nat) : Bool := l == 0 || l % 8 != 0

/-- The framed buffer of a ciphertext: every block chain-decrypted (R92). -/
def decodedFrame (k : Key) (c : List Byte) : List Byte :=
  bytesOf (chainDec k Chain.start (blocksOf c))

/-- The salt length in a frame's header, FB[0] & 0x07 (R89). The frame of a ciphertext that passed the length
check is not empty. -/
def headerSalt (fb : List Byte) : Nat := (fb.headD 0 &&& 0x07).toNat

/-- FB[1+s .. 7+s] are all zero (R90). -/
def zeroCheckOk (fb : List Byte) (s : Nat) : Bool := (fb.drop (1 + s)).take 7 == List.replicate 7 0

/-- Unframing a buffer of L bytes: the room for the salt, the zero-check, then the plaintext and its length n
(R89 to R92). -/
def unframe (fb : List Byte) (l : Nat) : Except ErrorCode (List Byte × Nat) :=
  if headerSalt fb > l - 8 then .error .integrityCheckFailed
  else if zeroCheckOk fb (headerSalt fb) then
    .ok (fb.drop (8 + headerSalt fb), l - 8 - headerSalt fb)
  else .error .integrityCheckFailed

/-- CodecDec(C, LK), for a ciphertext that passed the length check (R92). -/
def codecDec (k : Key) (c : List Byte) : Except ErrorCode (List Byte × Nat) :=
  unframe (decodedFrame k c) c.length

end Sys2Proof.Machine
end

