-- ==== Sys2Proof/Machine/Ops.lean ====
section
/-! DEFINITION. The operations the commands and the bus share: MSG RAM (20_memory.md R41), range checks
(41_message_codec.md R93), issue (30_encoding.md R56, R57), completion (R59), raising an error (60_exceptions.md
R99, R102) and reset (70_reset_and_hazards.md R113).

RAISING AN ERROR IS THIS HARDWARE'S ONLY EXCEPTION: `raise` below is its one shared operation. There is no trap,
no saved pc or status and no vector (R97), and so no return (R105). -/

namespace Sys2Proof.Machine

/-! ### MSG RAM -/

/-- The canonical form: offsets strictly rising. -/
def Memory.wf (m : Memory) : Bool := decide (m.Pairwise (fun a b => a.1 < b.1))

/-- Every listed byte lies in MSG RAM, offsets 0 to MSG_BYTES-1 (R31). -/
def Memory.within (msgBytes : Nat) (m : Memory) : Bool := m.all (fun c => c.1 < msgBytes)

/-- The byte at an offset; none if it was never written since reset (R31, R114). -/
def Memory.read : Memory → Nat → Option Byte
  | [], _ => none
  | (x, b) :: m, a => if x = a then some b else Memory.read m a

/-- Sets one byte and its written mark, keeping the canonical form (R31). -/
def Memory.write : Memory → Nat → Byte → Memory
  | [], a, b => [(a, b)]
  | (x, c) :: m, a, b =>
    if a < x then (a, b) :: (x, c) :: m
    else if a = x then (a, b) :: m
    else (x, c) :: Memory.write m a b

/-- `MemRead(a, n)`: the n bytes from offset a on; none if one of them was never written (R41, R114). -/
def Memory.readBytes (m : Memory) (a : Nat) : Nat → Option (List Byte)
  | 0 => some []
  | n + 1 =>
    match m.read a with
    | none => none
    | some b => (Memory.readBytes m (a + 1) n).map (b :: ·)

/-- `MemWrite(a, n, v)`: the bytes of v from offset a on (R41). -/
def Memory.writeBytes (m : Memory) (a : Nat) : List Byte → Memory
  | [] => m
  | b :: bs => Memory.writeBytes (m.write a b) (a + 1) bs

/-! ### Range checks, in unbounded integers -/

/-- `InRange(a, m)` (R93). -/
def inRange (msgBytes a m : Nat) : Bool := decide (a + m ≤ msgBytes)

/-- `Overlap(a, m, b, k)` (R93). -/
def overlap (a m b k : Nat) : Bool := decide (0 < m ∧ 0 < k ∧ a < b + k ∧ b < a + m)

/-! ### Issue, completion, error -/

/-- Issue of the command word w, in one step (R56). -/
def issue (w : Word) (s : State) : State :=
  { s with cmd := w, latches := latchOperands w s, status := Status.issued }

/-- A host write to CMD: issue while idle, discarded with OVR while busy (R16, R56, R57). -/
def writeCmd (w : Word) (s : State) : State :=
  if s.status.busy then { s with status := s.status.overrun } else issue w s

/-- Completion with success (`none`) or with an error (R59). BUSY becomes 0, so the latches become unspecified
(R32; log 5). -/
def complete (outcome : Option ErrorCode) (s : State) : State :=
  { s with
    status := s.status.completed outcome
    latches := Latches.unspecified s.latchDraws
    latchDraws := s.latchDraws + 1 }

/-- The register writes of a failed command: none for BAD_COMMAND, DLEN <- 0 for the errors of MENC and MDEC
(R102). -/
def failWrites (e : ErrorCode) (s : State) : State :=
  match e with
  | .badCommand => s
  | .invalidKeyLength => { s with dlen := 0 }
  | .invalidLength => { s with dlen := 0 }
  | .integrityCheckFailed => { s with dlen := 0 }
  | .rangeError => { s with dlen := 0 }

/-- `raise E`: the failed command's writes, then completion with ERR = 1 and ECODE = code(E) (R99, R102). -/
def raise (e : ErrorCode) (s : State) : State := complete (some e) (failWrites e s)

/-! ### Reset -/

/-- Reset of the engine, at any step: every register 0, MSG RAM unwritten, latches unspecified, a command in
flight abandoned (R113). The hosts, the turns to come and the random source are outside the engine (log 10). -/
def resetEngine (s : State) : State :=
  { State.reset with
    params := s.params
    latches := Latches.unspecified s.latchDraws
    draws := s.draws
    latchDraws := s.latchDraws + 1
    hosts := s.hosts
    turns := s.turns }

end Sys2Proof.Machine
end

