-- ==== Sys2Proof/Machine/Bus.lean ====
section
/-! DEFINITION. The hosts' side: decoding of bus transactions into the admitted accesses (20_memory.md R38,
R39, R43, R44), the effect of each (R39, R42, R45, R47; 70_reset_and_hazards.md R114, R118, R120), and one line
of a host's program (30_encoding.md R64). -/

namespace Sys2Proof.Machine

/-- The offset of MSG RAM in the window (R38). -/
def MSG_OFFSET : Nat := 0x1000

/-- The admitted read at an offset of the window, or why there is none (R39, R43, R44). -/
def decodeRead (msgBytes width off : Nat) : Except Refusal HostAccess :=
  if off < MSG_OFFSET then
    if width = 32 then if off % 4 = 0 then .ok (.regRead off) else .error .misaligned
    else .error .widthNotAdmitted
  else if width = 8 then .ok (.msgReadB (off - MSG_OFFSET))
  else if width = 32 then
    if off % 4 = 0 then
      if off - MSG_OFFSET + 4 ≤ msgBytes then .ok (.msgReadW (off - MSG_OFFSET)) else .error .outsideWindow
    else .error .misaligned
  else .error .widthNotAdmitted

/-- The admitted write at an offset of the window, or why there is none (R39, R43, R44). -/
def decodeWrite (msgBytes width off data : Nat) : Except Refusal HostAccess :=
  if off < MSG_OFFSET then
    if width = 32 then
      if off % 4 = 0 then .ok (.regWrite off (BitVec.ofNat 32 data)) else .error .misaligned
    else .error .widthNotAdmitted
  else if width = 8 then .ok (.msgWriteB (off - MSG_OFFSET) (BitVec.ofNat 8 data))
  else if width = 32 then
    if off % 4 = 0 then
      if off - MSG_OFFSET + 4 ≤ msgBytes then .ok (.msgWriteW (off - MSG_OFFSET) (BitVec.ofNat 32 data))
      else .error .outsideWindow
    else .error .misaligned
  else .error .widthNotAdmitted

/-- The address of a transaction. -/
def BusAccess.addr : BusAccess → Nat
  | .read _ a => a
  | .write _ a _ => a

/-- The address lies in the window of 0x1000 + MSG_BYTES bytes at BASE (R37, R38). -/
def inWindow (base msgBytes addr : Nat) : Bool :=
  decide (base ≤ addr ∧ addr < base + MSG_OFFSET + msgBytes)

/-- A transaction as an admitted access, or the refusal of it: the window first, then the width, then the
alignment (R38, R39, R43, R44; log 11). -/
def decodeAccess (base msgBytes : Nat) (t : BusAccess) : Except Refusal HostAccess :=
  if inWindow base msgBytes t.addr then
    match t with
    | .read width addr => decodeRead msgBytes width (addr - base)
    | .write width addr data => decodeWrite msgBytes width (addr - base) data
  else .error .outsideWindow

/-- A host's write to a register: CMD issues or sets OVR, the operand registers store, the read-only registers
ignore it (R15, R16, R23 to R29, R47). Operand writes take effect at once, busy or not (R120). -/
def writeReg (r : Reg) (w : Word) (s : State) : State :=
  match r with
  | .cmd => writeCmd w s
  | .status => s
  | .key0 => { s with key := { s.key with k0 := w } }
  | .key1 => { s with key := { s.key with k1 := w } }
  | .key2 => { s with key := { s.key with k2 := w } }
  | .key3 => { s with key := { s.key with k3 := w } }
  | .din0 => { s with din0 := w }
  | .din1 => { s with din1 := w }
  | .dout0 => s
  | .dout1 => s
  | .src => { s with src := w }
  | .slen => { s with slen := w }
  | .dst => { s with dst := w }
  | .dlen => s

/-- A register write at an offset; a reserved offset ignores it (R39, R45). -/
def regWrite (o : Nat) (w : Word) (s : State) : State :=
  match Reg.ofOffset o with
  | some r => writeReg r w s
  | none => s

/-- A message command is in flight: BUSY = 1 and LOP is 0x00000003 or 0x00000004 (R118). -/
def messageInFlight (s : State) : Bool :=
  s.status.busy && (s.latches.lop == 0x00000003 || s.latches.lop == 0x00000004)

/-- The word at an offset of MSG RAM, big-endian; none if a byte of it was never written (R42, R114). -/
def Memory.readWord (m : Memory) (a : Nat) : Option Word :=
  match m.readBytes a 4 with
  | some [b0, b1, b2, b3] => some (be32 b0 b1 b2 b3)
  | _ => none

/-- The effect of an admitted access and what a read returns (R39). An access to MSG RAM faults while a message
command is in flight (R118), and a read of an unwritten byte faults (R114). -/
def hostAccess (x : HostAccess) (s : State) : Host.Outcome (State × Option Response) Fault Refusal :=
  match x with
  | .regRead o => .next (s, some (.word (regRead o s)))
  | .regWrite o w => .next (regWrite o w s, none)
  | .msgReadB a =>
    if messageInFlight s then .fault .msgAccessInFlight
    else match s.msg.read a with
      | some b => .next (s, some (.byte b))
      | none => .fault .hostReadUnwritten
  | .msgWriteB a b =>
    if messageInFlight s then .fault .msgAccessInFlight
    else .next ({ s with msg := s.msg.write a b }, none)
  | .msgReadW a =>
    if messageInFlight s then .fault .msgAccessInFlight
    else match s.msg.readWord a with
      | some w => .next (s, some (.word w))
      | none => .fault .hostReadUnwritten
  | .msgWriteW a w =>
    if messageInFlight s then .fault .msgAccessInFlight
    else .next ({ s with msg := s.msg.writeBytes a (unbe32 w) }, none)

/-- One bus transaction (R66): refused if it is no admitted access (R39). -/
def busAccess (t : BusAccess) (s : State) : Host.Outcome (State × Option Response) Fault Refusal :=
  match decodeAccess s.params.base s.params.msgBytes t with
  | .ok x => hostAccess x s
  | .error r => .refused r

/-! ### Host programs -/

/-- The transaction a line makes: `bbs` reads its register (R64, R66). DESIGN CHOICE: a register line whose offset is
0x1000 or more is the MSG RAM word access that R66's transaction is (log 21). -/
def HostLine.transaction (base : Nat) : HostLine → BusAccess
  | .bus t => t
  | .bbs o _ _ => .read 32 (base + o)

/-- Where the host goes on: `bbs` at its target if the bit it read is 1, otherwise the next line (R64). -/
def HostLine.nextLine (line : Nat) (r : Option Response) : HostLine → Nat
  | .bus _ => line + 1
  | .bbs _ bit target =>
    match r with
    | some (.word w) => if w.getLsbD bit then target else line + 1
    | _ => line + 1

/-- The host after its line: where it goes on, and what its read returned (log 7, 12). -/
def HostAgent.after (h : HostAgent) (l : HostLine) (r : Option Response) : HostAgent :=
  { h with line := l.nextLine h.line r, responses := r.toList ++ h.responses }

/-- The line a host runs next; none when its program has ended (R64). -/
def HostAgent.nextLine? (h : HostAgent) : Option HostLine := h.program[h.line]?

/-- Host `h`, number `k`, runs the line `l`. -/
def runLine (k : Nat) (h : HostAgent) (l : HostLine) (s : State) : Host.Outcome State Fault Refusal :=
  match busAccess (l.transaction s.params.base) s with
  | .next (t, r) => .next { t with hosts := t.hosts.set k (h.after l r) }
  | .fault f => .fault f
  | .refused r => .refused r

/-- Host number `k`'s turn; it passes if there is no such host or its program has ended (log 8). -/
def hostTurn (k : Nat) (s : State) : Host.Outcome State Fault Refusal :=
  match s.hosts[k]? with
  | none => .next s
  | some h =>
    match h.nextLine? with
    | none => .next s
    | some l => runLine k h l s

/-! ### The notation of R64 and the pseudo-instructions of R65, as lines of transactions (R66) -/

/-- `wr REG, imm32`; at an offset of 0x1000 or more, see log 21. -/
def HostLine.wr (base o : Nat) (w : Word) : HostLine := .bus (.write 32 (base + o) w.toNat)

/-- `rd REG`; at an offset of 0x1000 or more, see log 21. -/
def HostLine.rd (base o : Nat) : HostLine := .bus (.read 32 (base + o))

/-- `wrb a, imm8`. -/
def HostLine.wrb (base a : Nat) (b : Byte) : HostLine := .bus (.write 8 (base + MSG_OFFSET + a) b.toNat)

/-- `rdb a`. -/
def HostLine.rdb (base a : Nat) : HostLine := .bus (.read 8 (base + MSG_OFFSET + a))

/-- `wrw a, imm32`. -/
def HostLine.wrw (base a : Nat) (w : Word) : HostLine := .bus (.write 32 (base + MSG_OFFSET + a) w.toNat)

/-- `rdw a`. -/
def HostLine.rdw (base a : Nat) : HostLine := .bus (.read 32 (base + MSG_OFFSET + a))

/-- `poll`, standing at line `l`: read STATUS until BUSY = 0 (R65). -/
def HostLine.poll (l : Nat) : HostLine := .bbs Reg.status.offset 0 l

/-- `encb` (R65). -/
def HostLine.encb (base : Nat) : HostLine := .wr base Reg.cmd.offset 0x00000001

/-- `decb` (R65). -/
def HostLine.decb (base : Nat) : HostLine := .wr base Reg.cmd.offset 0x00000002

/-- `menc` (R65). -/
def HostLine.menc (base : Nat) : HostLine := .wr base Reg.cmd.offset 0x00000003

/-- `mdec` (R65). -/
def HostLine.mdec (base : Nat) : HostLine := .wr base Reg.cmd.offset 0x00000004

/-- `setkey k0, k1, k2, k3` (R65). -/
def HostLine.setkey (base : Nat) (k : Key) : List HostLine :=
  [.wr base Reg.key0.offset k.k0, .wr base Reg.key1.offset k.k1,
   .wr base Reg.key2.offset k.k2, .wr base Reg.key3.offset k.k3]

/-- `blk.enc v0, v1`, its first line standing at line `l` (R65). -/
def HostLine.blkEnc (base l : Nat) (b : Block) : List HostLine :=
  [.wr base Reg.din0.offset b.v0, .wr base Reg.din1.offset b.v1, .encb base, .poll (l + 3)]

/-- `blk.dec v0, v1`, its first line standing at line `l` (R65). -/
def HostLine.blkDec (base l : Nat) (b : Block) : List HostLine :=
  [.wr base Reg.din0.offset b.v0, .wr base Reg.din1.offset b.v1, .decb base, .poll (l + 3)]

/-- `msg.enc s, n, d`, its first line standing at line `l` (R65). -/
def HostLine.msgEnc (base l : Nat) (src n dst : Word) : List HostLine :=
  [.wr base Reg.src.offset src, .wr base Reg.slen.offset n, .wr base Reg.dst.offset dst,
   .menc base, .poll (l + 4)]

/-- `msg.dec s, n, d`, its first line standing at line `l` (R65). -/
def HostLine.msgDec (base l : Nat) (src n dst : Word) : List HostLine :=
  [.wr base Reg.src.offset src, .wr base Reg.slen.offset n, .wr base Reg.dst.offset dst,
   .mdec base, .poll (l + 4)]

/-- A transaction whose data fits its width. -/
def BusAccess.wf : BusAccess → Bool
  | .read _ _ => true
  | .write width _ data => decide (data < 2 ^ width)

/-- A well-formed line of a program of `lines` lines: its transaction is an admitted access of this machine
(R39), its data fits, and a `bbs` tests a bit of a register's word and names a line (R64). The step does not check it:
it runs a line by its transaction alone (log 21). -/
def HostLine.wf (base msgBytes lines : Nat) (l : HostLine) : Bool :=
  (decodeAccess base msgBytes (l.transaction base)).toBool && (l.transaction base).wf &&
    match l with
    | .bus _ => true
    | .bbs o bit target => decide (o < MSG_OFFSET ∧ bit < 32 ∧ target ≤ lines)

end Sys2Proof.Machine
end

