-- ==== Sys2Proof/WellFormed.lean ====
section
/-! DEFINITION. Well-formed commands and command words. An `Instr` has no operand, so every one is well formed;
the check with content is the one on a command word's two fields (30_encoding.md R53 to R55). -/

namespace Sys2Proof

/-- A command has no operand that could be out of range (R53, R61). -/
def Instr.wf : Instr → Bool
  | .encb => true
  | .decb => true
  | .menc => true
  | .mdec => true

/-- The two fields of the command word (R53). -/
structure CommandFields where
  /-- OP, bits 3:0. -/
  op : BitVec 4
  /-- RSVD, bits 31:4. -/
  rsvd : BitVec 28
deriving DecidableEq, Repr

/-- A legal command word: RSVD is 0 and OP is one of 0x1 to 0x4 (R54, R55). -/
def CommandFields.wf (f : CommandFields) : Bool :=
  f.rsvd == 0 && (f.op == 1 || f.op == 2 || f.op == 3 || f.op == 4)

end Sys2Proof
end

