-- ==== Sys2Proof/Decode.lean ====
section
/-! DEFINITION. The command word: fields, decoder (total, rejecting by name) and encoder (30_encoding.md R53
to R55, R62). -/

namespace Sys2Proof

/-- Why a command word is illegal (R55). -/
inductive DecodeError where
  /-- RSVD, bits 31:4, is not 0. -/
  | reservedBits
  /-- OP is 0x0 or one of 0x5 to 0xF. -/
  | illegalOpcode
deriving DecidableEq, Repr

/-- The fields of a command word (R53). -/
def commandFields (w : Word) : CommandFields :=
  { op := w.extractLsb' 0 4, rsvd := w.extractLsb' 4 28 }

/-- The command word of two fields (R53). -/
def commandWord (f : CommandFields) : Word := f.rsvd ++ f.op

/-- The opcode map's OP column (R54). -/
def decodeOp : BitVec 4 → Except DecodeError Instr
  | 0x1#4 => .ok .encb
  | 0x2#4 => .ok .decb
  | 0x3#4 => .ok .menc
  | 0x4#4 => .ok .mdec
  | _ => .error .illegalOpcode

/-- The decoder. RSVD is tested first, then OP, in the order of `Execute` (R55, R58). -/
def decode (w : Word) : Except DecodeError Instr :=
  if (commandFields w).rsvd = 0 then decodeOp (commandFields w).op else .error .reservedBits

/-- OP of each command (R54). -/
def Instr.op : Instr → BitVec 4
  | .encb => 0x1
  | .decb => 0x2
  | .menc => 0x3
  | .mdec => 0x4

/-- The encoder: OP in bits 3:0 and RSVD = 0 (R53, R54). -/
def encode (i : Instr) : Word := commandWord { op := i.op, rsvd := 0 }

/-- The instruction the decoder reads from the low `nbits` bits of `w`. A command is one 32-bit word (R62), so
a wider number is no command (log 9). -/
def decodeTableWord (nbits w : Nat) : Option Instr :=
  if w % 2 ^ nbits < 2 ^ 32 then (decode (BitVec.ofNat 32 (w % 2 ^ nbits))).toOption else none

end Sys2Proof
end

