-- ==== Sys2Proof/Machine/BlockCommands.lean ====
section
/-! DEFINITION. The block commands ENCB and DECB (40_block_engine.md R73, R74). They raise no error (R76) and
touch no MSG RAM. -/

namespace Sys2Proof.Machine

/-- DOUT0 and DOUT1 take the two words of a block (R25). -/
def writeDout (b : Block) (s : State) : State := { s with dout0 := b.v0, dout1 := b.v1 }

/-- ENCB: DOUT <- TEA_Enc(LV0, LV1, LK), success (R73). -/
def execEncb (s : State) : Host.Outcome State Fault Refusal :=
  .next (complete none (writeDout (teaEnc s.latches.lk s.latches.block) s))

/-- DECB: DOUT <- TEA_Dec(LV0, LV1, LK), success (R74). -/
def execDecb (s : State) : Host.Outcome State Fault Refusal :=
  .next (complete none (writeDout (teaDec s.latches.lk s.latches.block) s))

end Sys2Proof.Machine
end

