-- ==== Sys2Proof/Machine/MessageCommands.lean ====
section
/-! DEFINITION. The message commands MENC and MDEC (41_message_codec.md R94, R95). MENC is written for any answer of
the random source; its meaning takes the answer to this request. -/

namespace Sys2Proof.Machine

/-- A message command's result: its bytes at LDST and their number in DLEN (R60). -/
def storeMessage (bytes : List Byte) (n : Nat) (s : State) : State :=
  { s with msg := s.msg.writeBytes s.latches.dstAt bytes, dlen := BitVec.ofNat 32 n }

/-- MENC's three range checks, for its source range and its destination range of L bytes (R94). -/
def mencRangesOk (msgBytes : Nat) (l : Latches) : Bool :=
  inRange msgBytes l.srcAt l.len &&
    (inRange msgBytes l.dstAt (frameLen l.len) && !overlap l.srcAt l.len l.dstAt (frameLen l.len))

/-- MENC with the random source's answer `rnd` (R94): the range checks, MemRead, one request to the random
source (R81), the frame, the chain, MemWrite, DLEN <- L. -/
def mencWith (rnd : Draw) (s : State) : Host.Outcome State Fault Refusal :=
  if mencRangesOk s.params.msgBytes s.latches then
    match s.msg.readBytes s.latches.srcAt s.latches.len with
    | none => .fault .engineReadUnwritten
    | some p =>
      .next (complete none
        { storeMessage (codecEnc s.latches.lk p rnd) (frameLen s.latches.len) s with draws := s.draws + 1 })
  else .next (raise .rangeError s)

/-- MENC (R94). The answer to this request is free (R106; log 3). -/
def execMenc (s : State) : Host.Outcome State Fault Refusal :=
  mencWith (Config.rngByte s.draws) s

/-- MDEC's destination checks, once n is known (R95, R101). -/
def mdecDestOk (msgBytes : Nat) (l : Latches) (n : Nat) : Bool :=
  inRange msgBytes l.dstAt n && !overlap l.srcAt l.len l.dstAt n

/-- The part of MDEC after MemRead: decode, check the destination, store (R95). -/
def mdecStore (c : List Byte) (s : State) : State :=
  match codecDec s.latches.lk c with
  | .error e => raise e s
  | .ok (p, n) =>
    if mdecDestOk s.params.msgBytes s.latches n then complete none (storeMessage p n s) else raise .rangeError s

/-- MDEC (R95): the length check, the source range, MemRead, then the rest, errors in the order of R101. -/
def execMdec (s : State) : Host.Outcome State Fault Refusal :=
  if lengthInvalid s.latches.len then .next (raise .invalidLength s)
  else if inRange s.params.msgBytes s.latches.srcAt s.latches.len then
    match s.msg.readBytes s.latches.srcAt s.latches.len with
    | none => .fault .engineReadUnwritten
    | some c => .next (mdecStore c s)
  else .next (raise .rangeError s)

end Sys2Proof.Machine
end

