-- ==== Sys2Proof/Machine/Dispatch.lean ====
section
/-! DEFINITION. One arm per command (30_encoding.md R58). -/

namespace Sys2Proof.Machine

/-- The perform step of a legal command (R58). -/
def exec (i : Instr) (s : State) : Host.Outcome State Fault Refusal :=
  match i with
  | .encb => Sys2Proof.Machine.execEncb s
  | .decb => Sys2Proof.Machine.execDecb s
  | .menc => Sys2Proof.Machine.execMenc s
  | .mdec => Sys2Proof.Machine.execMdec s

end Sys2Proof.Machine
end

