-- ==== Sys2Proof/Machine/Engine.lean ====
section
/-! DEFINITION. The engine's perform step (30_encoding.md R58) and the reset event (70_reset_and_hazards.md
R113). -/

namespace Sys2Proof.Machine

/-- `Execute(LOP)`: a legal word runs its command, any other raises BAD_COMMAND (R55, R58). -/
def perform (s : State) : Host.Outcome State Fault Refusal :=
  match decode s.latches.lop with
  | .ok i => exec i s
  | .error _ => .next (raise .badCommand s)

/-- The engine's turn: its step is enabled exactly while BUSY = 1 (R58); otherwise it has none, and the turn
passes (log 8). -/
def engineTurn (s : State) : Host.Outcome State Fault Refusal :=
  if s.status.busy then perform s else .next s

end Sys2Proof.Machine
end

