-- ==== Sys2Proof/Machine/Turns.lean ====
section
/-! DEFINITION. Who makes the next atomic step (20_memory.md R48; 60_exceptions.md R104; 70_reset_and_hazards.md
R122, R123; log 4). -/

namespace Sys2Proof.Machine

/-- The first host whose program has not ended. -/
def firstHost (s : State) : Option Nat := s.hosts.findIdx? (fun h => h.nextLine?.isSome)

/-- The next turn: the first of the list; when no turn is pending, the engine if it has a step, otherwise the
first host that has one (log 4). So the engine's step is never put off for ever (R123). -/
def nextTurn (s : State) : Option Turn :=
  match s.turns with
  | t :: _ => some t
  | [] => if s.status.busy then some .engine else (firstHost s).map .host

/-- The state once the first pending turn is taken. -/
def takeTurn (s : State) : State := { s with turns := s.turns.tail }

/-- The step of the agent whose turn it is. -/
def runTurn (t : Turn) (s : State) : Host.Outcome State Fault Refusal :=
  match t with
  | .engine => engineTurn s
  | .host k => hostTurn k s
  | .reset => .next (resetEngine s)

/-- One atomic step of the system. With no agent that could move, nothing changes (R115; log 8). -/
def systemStep (s : State) : Host.Outcome State Fault Refusal :=
  match nextTurn s with
  | some t => runTurn t (takeTurn s)
  | none => .next s

end Sys2Proof.Machine
end

