-- ==== Sys2Proof/Machine/Step.lean ====
section
/-! DEFINITION. One step of the machine, and how a command is put before it. -/

namespace Sys2Proof.Machine

/-- One atomic step (20_memory.md R48): a host access, a perform step or a reset. -/
def step (s : State) : Host.Outcome State Fault Refusal := systemStep s

/-- `s` with the command word `w` issued (30_encoding.md R56) and the next turn the engine's, so that the very
next step performs exactly it. The engine fetches nothing (R51): a command runs once a host's write to CMD has
issued it (log 9). -/
def State.withFetchWord (s : State) (nbits w : Nat) : State :=
  { issue (BitVec.ofNat 32 (w % 2 ^ nbits)) s with turns := .engine :: s.turns }

end Sys2Proof.Machine
end

