-- ==== Sys2Proof/Safety.lean ====
section
/-! DEFINITION. What counts as a safe run, and the invariant of the machine. -/

namespace Sys2Proof

/-- A run is safe when it never stops: no hazard (70_reset_and_hazards.md R118), no read of an unwritten byte
(R114), no access the bus does not admit (20_memory.md R43, R44). -/
def SafeFrom (s : Machine.State) : Prop := ∀ n, ∃ t, core.run n s = .next t

namespace Machine

/-- The values ECODE can hold: 0x1 and 0x6 to 0xF are never produced (60_exceptions.md R98). -/
def ecodeLegal (c : BitVec 4) : Bool := c == 0 || c == 2 || c == 3 || c == 4 || c == 5

/-- STATUS is consistent: ECODE is a code some command produces and is nonzero exactly when ERR = 1 (10_state.md
R22, R98); a command in flight has cleared DONE, ERR and ECODE (R56); ERR and OVR need a command (R20, R21). -/
structure Status.Inv (t : Status) : Prop where
  ecode_legal : ecodeLegal t.ecode = true
  err_iff : t.err = true ↔ t.ecode ≠ 0
  busy_clears : t.busy = true → t.done = false ∧ t.err = false
  idle_fresh : t.busy = false → t.done = false → t.err = false ∧ t.ovr = false

/-- The invariant of the machine: its parameters are legal (00_scope.md R7), STATUS is consistent, MSG RAM is in
canonical form and inside its bounds (R31), a command in flight is the last accepted word (R16, R32), and CMD is 0
until a command is accepted (R16). -/
structure State.Inv (s : State) : Prop where
  params_legal : s.params.legal = true
  status : s.status.Inv
  msg_wf : s.msg.wf = true
  msg_within : s.msg.within s.params.msgBytes = true
  in_flight : s.status.busy = true → s.latches.lop = s.cmd
  never_issued : s.status.busy = false → s.status.done = false → s.cmd = 0

end Machine

end Sys2Proof
end

