-- ==== Sys2Proof/Certificates/Slice0/Obligations.lean ====
section
/-! DEFINITION. The statements for the provers. Each docstring names the rule of spec/ it formalises. A statement
about a state with free values (random bytes, latches while idle) holds for every value of them. -/

open Sys2Proof Sys2Proof.Machine

/-! ### Words the statements share -/

namespace Sys2Proof.Claims

/-- The registers no command writes (30_encoding.md R60), and the agents outside the engine, are unchanged. -/
def operandsKept (s t : State) : Prop :=
  t.cmd = s.cmd ∧ t.key = s.key ∧ t.din0 = s.din0 ∧ t.din1 = s.din1 ∧ t.src = s.src ∧ t.slen = s.slen ∧
    t.dst = s.dst ∧ t.params = s.params ∧ t.hosts = s.hosts ∧ t.turns = s.turns

/-- DOUT0 and DOUT1 are unchanged. -/
def doutKept (s t : State) : Prop := t.dout0 = s.dout0 ∧ t.dout1 = s.dout1

/-- Completion with success: BUSY 0, DONE 1, ERR 0, ECODE 0, OVR unchanged (R59). -/
def succeeded (s t : State) : Prop :=
  t.status.busy = false ∧ t.status.done = true ∧ t.status.err = false ∧ t.status.ecode = 0 ∧
    t.status.ovr = s.status.ovr

/-- Completion with an error code: BUSY 0, DONE 1, ERR 1, ECODE as given, OVR unchanged (R59). -/
def failedWith (code : BitVec 4) (s t : State) : Prop :=
  t.status.busy = false ∧ t.status.done = true ∧ t.status.err = true ∧ t.status.ecode = code ∧
    t.status.ovr = s.status.ovr

/-- A message command that ended in an error: the code, DLEN 0, and nothing else changed (60_exceptions.md
R102). -/
def messageFailed (code : BitVec 4) (s t : State) : Prop :=
  failedWith code s t ∧ t.dlen = 0 ∧ operandsKept s t ∧ doutKept s t ∧ t.msg = s.msg ∧ t.draws = s.draws

/-- Every byte of MSG RAM outside offsets a to a+n-1 reads as before. -/
def bytesKeptOutside (a n : Nat) (s t : State) : Prop :=
  ∀ b, b < a ∨ a + n ≤ b → t.msg.read b = s.msg.read b

/-- The n bytes of MSG RAM from offset a on were written and are p. -/
def holdsBytes (s : State) (a n : Nat) (p : List Byte) : Prop :=
  p.length = n ∧ ∀ i, i < n → s.msg.read (a + i) = p[i]?

/-- The round function written out (40_block_engine.md R68). -/
def F (v ka kb s : Word) : Word := ((v <<< 4) + ka) ^^^ (v + s) ^^^ ((v >>> 5) + kb)

/-- The 8 bytes of a block: v0 then v1, most significant byte first (20_memory.md R40). -/
def blockBytes (b : Block) : List Byte :=
  [b.v0.extractLsb' 24 8, b.v0.extractLsb' 16 8, b.v0.extractLsb' 8 8, b.v0.extractLsb' 0 8,
   b.v1.extractLsb' 24 8, b.v1.extractLsb' 16 8, b.v1.extractLsb' 8 8, b.v1.extractLsb' 0 8]

/-- Item j-1 of a list of blocks, and zeros(8) for j = 0: the chain state on entry to block j
(41_message_codec.md R84). -/
def before (l : List Block) (j : Nat) : Block :=
  if j = 0 then { v0 := 0, v1 := 0 } else l.getD (j - 1) { v0 := 0, v1 := 0 }

/-- `Overlap(a, m, b, k)` (R93). -/
def overlapping (a m b k : Nat) : Prop := 0 < m ∧ 0 < k ∧ a < b + k ∧ b < a + m

/-- MENC's three range checks pass: source, destination of L = 8 * floor((n + 15) / 8) bytes, no overlap (R83,
R93, R94). -/
def mencRanges (s : State) : Prop :=
  s.latches.lsrc.toNat + s.latches.lslen.toNat ≤ s.params.msgBytes ∧
    s.latches.ldst.toNat + 8 * ((s.latches.lslen.toNat + 15) / 8) ≤ s.params.msgBytes ∧
    ¬ overlapping s.latches.lsrc.toNat s.latches.lslen.toNat s.latches.ldst.toNat
      (8 * ((s.latches.lslen.toNat + 15) / 8))

/-- MDEC's length and source checks pass, and its source bytes are the ciphertext c (R88, R93, R95). -/
def mdecSource (s : State) (c : List Byte) : Prop :=
  s.latches.lslen.toNat ≠ 0 ∧ s.latches.lslen.toNat % 8 = 0 ∧
    s.latches.lsrc.toNat + s.latches.lslen.toNat ≤ s.params.msgBytes ∧
    holdsBytes s s.latches.lsrc.toNat s.latches.lslen.toNat c

/-- FB of a ciphertext under the latched key (R92). -/
def frameOf (s : State) (c : List Byte) : List Byte := decodedFrame s.latches.lk c

/-- The salt length in the header of FB: FB[0] & 0x07 (R89). -/
def saltOf (fb : List Byte) : Nat := (fb.getD 0 0 &&& 0x07).toNat

/-- FB[1+s .. 7+s] are all zero (R90). -/
def checkBytesZero (fb : List Byte) (s : Nat) : Prop := ∀ i, i < 7 → fb[1 + s + i]? = some 0

/-- The next step is the engine's and it has one: BUSY = 1, and the first pending turn, if any, is the
engine's (20_memory.md R48, 30_encoding.md R58). -/
def engineNext (s : State) : Prop :=
  s.status.busy = true ∧ (s.turns = [] ∨ ∃ ts, s.turns = Turn.engine :: ts)

/-- `s` after its first pending turn is taken, if there is one. -/
def afterTurn (s : State) : State := { s with turns := s.turns.drop 1 }

/-- `s` with host number `k`, which was `h`, gone on to `line` and given what its read returned. -/
def hostMoved (s : State) (k : Nat) (h : HostAgent) (line : Nat) (r : Option Response) : State :=
  { s with hosts := s.hosts.set k { h with line := line, responses := r.toList ++ h.responses } }

/-- An access that only reads (20_memory.md R39). -/
def isRead : HostAccess → Bool
  | .regRead _ => true
  | .regWrite _ _ => false
  | .msgReadB _ => true
  | .msgWriteB _ _ => false
  | .msgReadW _ => true
  | .msgWriteW _ _ => false

/-- A write to CMD, offset 0x000. -/
def isCmdWrite : HostAccess → Bool
  | .regRead _ => false
  | .regWrite o _ => o == 0
  | .msgReadB _ => false
  | .msgWriteB _ _ => false
  | .msgReadW _ => false
  | .msgWriteW _ _ => false

/-- An access to MSG RAM. -/
def isMsgAccess : HostAccess → Bool
  | .regRead _ => false
  | .regWrite _ _ => false
  | .msgReadB _ => true
  | .msgWriteB _ _ => true
  | .msgReadW _ => true
  | .msgWriteW _ _ => true

/-- The bus transaction a line makes: `bbs` reads its register (30_encoding.md R64, R66). -/
def lineTransaction (base : Nat) : HostLine → BusAccess
  | .bus t => t
  | .bbs o _ _ => .read 32 (base + o)

/-- `s` and `s'` agree on everything a perform step may read: the latches, MSG RAM, the random source, and the
machine's parameters (30_encoding.md R58). -/
def samePerformInputs (s s' : State) : Prop :=
  s'.latches = s.latches ∧ s'.msg = s.msg ∧ s'.draws = s.draws ∧ s'.params = s.params

/-- A command took `s` to `t` and `s'` to `t'` with the same results: the same MSG RAM, requests to the random source,
BUSY, DONE, ERR and ECODE; the same DOUT where it is a block command's, the same DLEN where it is a message
command's; and every register that is not a result is what it was on its own side (R59, R60). Which free values the
idle latches take depends only on the model's count of them (log 5). -/
def sameResults (block message : Prop) (s s' t t' : State) : Prop :=
  t'.msg = t.msg ∧ t'.draws = t.draws ∧ t'.status = { t.status with ovr := s'.status.ovr } ∧
    t.status.ovr = s.status.ovr ∧
    (block → t'.dout0 = t.dout0 ∧ t'.dout1 = t.dout1) ∧ (¬ block → doutKept s t ∧ doutKept s' t') ∧
    (message → t'.dlen = t.dlen) ∧ (¬ message → t.dlen = s.dlen ∧ t'.dlen = s'.dlen) ∧
    operandsKept s t ∧ operandsKept s' t' ∧ (s'.latchDraws = s.latchDraws → t'.latches = t.latches)

/-- The outcomes `o` from `s` and `o'` from `s'` are the same stop, or next states with the same results. -/
def sameOutcome (block message : Prop) (s s' : State) (o o' : Host.Outcome State Fault Refusal) : Prop :=
  match o with
  | .next t => ∃ t', o' = .next t' ∧ sameResults block message s s' t t'
  | .fault f => o' = .fault f
  | .refused r => o' = .refused r

end Sys2Proof.Claims

open Sys2Proof.Claims

/-! ### Block Engine -/

/-- R68, R69: TEA_Enc is 32 cycles of sum, v0, v1 in that order, v1 from the new v0. -/
def Obligations.TeaEncFollowsItsCycles : Prop :=
  ∀ (k : Key) (sum v0 v1 : Nat → Word), sum 0 = 0 →
    (∀ i, i < 32 → sum (i + 1) = sum i + 0x9E3779B9 ∧
      v0 (i + 1) = v0 i + F (v1 i) k.k0 k.k1 (sum (i + 1)) ∧
      v1 (i + 1) = v1 i + F (v0 (i + 1)) k.k2 k.k3 (sum (i + 1))) →
    teaEnc k { v0 := v0 0, v1 := v1 0 } = { v0 := v0 32, v1 := v1 32 }

/-- R70: TEA_Dec is 32 cycles of v1, v0, sum in that order from sum = 0xC6EF3720 = DELTA * 32, and ends at
sum = 0. -/
def Obligations.TeaDecFollowsItsCycles : Prop :=
  (0x9E3779B9 : Word) * 32 = 0xC6EF3720 ∧
  ∀ (k : Key) (sum v0 v1 : Nat → Word), sum 0 = 0xC6EF3720 →
    (∀ i, i < 32 → v1 (i + 1) = v1 i - F (v0 i) k.k2 k.k3 (sum i) ∧
      v0 (i + 1) = v0 i - F (v1 (i + 1)) k.k0 k.k1 (sum i) ∧
      sum (i + 1) = sum i - 0x9E3779B9) →
    teaDec k { v0 := v0 0, v1 := v1 0 } = { v0 := v0 32, v1 := v1 32 } ∧ sum 32 = 0

/-- R67: no key expansion; encryption cycle i uses sum_i = i * DELTA, decryption cycle j uses sum_(33-j), the
same four key words in every cycle. -/
def Obligations.KeyScheduleIsMultiplesOfDelta : Prop :=
  ∀ (k : Key) (v0 v1 : Nat → Word),
    ((∀ i, 1 ≤ i → i ≤ 32 →
        v0 i = v0 (i - 1) + F (v1 (i - 1)) k.k0 k.k1 (BitVec.ofNat 32 (i * 0x9E3779B9)) ∧
        v1 i = v1 (i - 1) + F (v0 i) k.k2 k.k3 (BitVec.ofNat 32 (i * 0x9E3779B9))) →
      teaEnc k { v0 := v0 0, v1 := v1 0 } = { v0 := v0 32, v1 := v1 32 }) ∧
    ((∀ j, 1 ≤ j → j ≤ 32 →
        v1 j = v1 (j - 1) - F (v0 (j - 1)) k.k2 k.k3 (BitVec.ofNat 32 ((33 - j) * 0x9E3779B9)) ∧
        v0 j = v0 (j - 1) - F (v1 j) k.k0 k.k1 (BitVec.ofNat 32 ((33 - j) * 0x9E3779B9))) →
      teaDec k { v0 := v0 0, v1 := v1 0 } = { v0 := v0 32, v1 := v1 32 })

/-- R71: TEA_Dec and TEA_Enc undo each other under every key, so both permute the blocks. -/
def Obligations.TeaEncAndDecAreInverse : Prop :=
  ∀ k : Key, (∀ b, teaDec k (teaEnc k b) = b) ∧ (∀ b, teaEnc k (teaDec k b) = b) ∧
    Function.Bijective (teaEnc k) ∧ Function.Bijective (teaDec k)

/-- R78: the known-vector fixture, as words and as bytes. -/
def Obligations.KnownVectorFixture : Prop :=
  teaEnc { k0 := 0, k1 := 0, k2 := 0, k3 := 0 } { v0 := 0, v1 := 0 } =
      { v0 := 0x41EA3A0A, v1 := 0x94BAA940 } ∧
    blockBytes (teaEnc { k0 := 0, k1 := 0, k2 := 0, k3 := 0 } { v0 := 0, v1 := 0 }) =
      [0x41, 0xEA, 0x3A, 0x0A, 0x94, 0xBA, 0xA9, 0x40]

/-- R40: BE32 weighs its bytes most significant first, UNBE32 undoes it and is undone by it, and a block is the
8-byte string of v0 then v1. -/
def Obligations.ByteOrderIsBigEndian : Prop :=
  (∀ b0 b1 b2 b3 : Byte,
    (be32 b0 b1 b2 b3).toNat = b0.toNat * 2 ^ 24 + b1.toNat * 2 ^ 16 + b2.toNat * 2 ^ 8 + b3.toNat ∧
      unbe32 (be32 b0 b1 b2 b3) = [b0, b1, b2, b3]) ∧
  (∀ w : Word, ∃ b0 b1 b2 b3, unbe32 w = [b0, b1, b2, b3] ∧ be32 b0 b1 b2 b3 = w) ∧
  (∀ b : Block, b.toBytes = blockBytes b ∧ blocksOf (blockBytes b) = [b])

/-- R10: XOR of two 8-byte strings is bytewise, though the model computes it on words (log 14). -/
def Obligations.BlockXorIsBytewise : Prop :=
  ∀ a b : Block, blockBytes (a.xor b) = List.zipWith (· ^^^ ·) (blockBytes a) (blockBytes b)

/-! ### Block commands -/

/-- R73: ENCB writes TEA_Enc of the latched block to DOUT, completes with success, changes nothing else; its word
is 0x00000001. -/
def Obligations.EncbEncryptsTheLatchedBlock : Prop :=
  encode .encb = 0x00000001 ∧
  ∀ s : State, ∃ t, exec .encb s = .next t ∧
    ({ v0 := t.dout0, v1 := t.dout1 } : Block) =
      teaEnc s.latches.lk { v0 := s.latches.lv0, v1 := s.latches.lv1 } ∧
    succeeded s t ∧ operandsKept s t ∧ t.dlen = s.dlen ∧ t.msg = s.msg ∧ t.draws = s.draws

/-- R74: DECB writes TEA_Dec of the latched block to DOUT, completes with success, changes nothing else; its word
is 0x00000002. -/
def Obligations.DecbDecryptsTheLatchedBlock : Prop :=
  encode .decb = 0x00000002 ∧
  ∀ s : State, ∃ t, exec .decb s = .next t ∧
    ({ v0 := t.dout0, v1 := t.dout1 } : Block) =
      teaDec s.latches.lk { v0 := s.latches.lv0, v1 := s.latches.lv1 } ∧
    succeeded s t ∧ operandsKept s t ∧ t.dlen = s.dlen ∧ t.msg = s.msg ∧ t.draws = s.draws

/-- From R71 and R74's corner case: DECB of ENCB's output under the same key gives ENCB's input back, and ENCB of
DECB's output gives DECB's input back. -/
def Obligations.EncbAndDecbUndoEachOther : Prop :=
  ∀ s t u v : State, u.latches.lk = s.latches.lk → u.latches.lv0 = t.dout0 → u.latches.lv1 = t.dout1 →
    ((exec .encb s = .next t ∧ exec .decb u = .next v) ∨ (exec .decb s = .next t ∧ exec .encb u = .next v)) →
    v.dout0 = s.latches.lv0 ∧ v.dout1 = s.latches.lv1

/-! ### Message Codec -/

/-- R79, R83: the salt length is the one that makes the frame a multiple of 8, at most 7, and L is the smallest
multiple of 8 that is at least n + 8; frame and ciphertext both have that length. -/
def Obligations.FrameLengthIsMinimal : Prop :=
  ∀ n : Nat, saltLen n = (8 - n % 8) % 8 ∧ saltLen n ≤ 7 ∧
    n + 8 + saltLen n = 8 * ((n + 15) / 8) ∧ (∀ m, m % 8 = 0 → n + 8 ≤ m → 8 * ((n + 15) / 8) ≤ m) ∧
    ∀ (p : List Byte) (rnd : Draw) (k : Key), p.length = n →
      (frame p rnd).length = 8 * ((n + 15) / 8) ∧ (codecEnc k p rnd).length = 8 * ((n + 15) / 8)

/-- R80, R82: the frame's bytes, one by one: header, salt, seven zero-check bytes, plaintext, nothing after. -/
def Obligations.FrameLayout : Prop :=
  ∀ (p : List Byte) (rnd : Draw) (s : Nat), s = (8 - p.length % 8) % 8 →
    (∃ hdr : Byte, (frame p rnd)[0]? = some hdr ∧ hdr.extractLsb' 3 5 = (rnd 0).extractLsb' 3 5 ∧
      (hdr.extractLsb' 0 3).toNat = s) ∧
    (∀ i, 1 ≤ i → i ≤ s → (frame p rnd)[i]? = some (rnd i)) ∧
    (∀ i, i < 7 → (frame p rnd)[1 + s + i]? = some 0) ∧
    (∀ i, i < p.length → (frame p rnd)[8 + s + i]? = p[i]?) ∧
    (frame p rnd).length = 8 + s + p.length

/-- R84, R85, R86: x_j = p_j ^ c_(j-1) and c_j = EncBlk(x_j ^ x_(j-1)), with zeros before the first block; the
ciphertext is the concatenation of the c_j in order. -/
def Obligations.ChainEncryptRecurrence : Prop :=
  ∀ (k : Key) (p : List Byte) (rnd : Draw), ∃ xs cs : List Block,
    xs.length = (blocksOf (frame p rnd)).length ∧ cs.length = (blocksOf (frame p rnd)).length ∧
    (∀ j, j < (blocksOf (frame p rnd)).length →
      xs[j]? = ((blocksOf (frame p rnd))[j]?).map (fun b => b.xor (before cs j)) ∧
      cs[j]? = (xs[j]?).map (fun x => teaEnc k (x.xor (before xs j)))) ∧
    codecEnc k p rnd = cs.flatMap blockBytes ∧ (blocksOf (frame p rnd)).flatMap blockBytes = frame p rnd

/-- R84, R87, R92: x_j = DecBlk(c_j) ^ x_(j-1) and p_j = x_j ^ c_(j-1), with zeros before the first block; FB is
the concatenation of the p_j in order. -/
def Obligations.ChainDecryptRecurrence : Prop :=
  ∀ (k : Key) (c : List Byte), c.length % 8 = 0 → ∃ xs ps : List Block,
    xs.length = (blocksOf c).length ∧ ps.length = (blocksOf c).length ∧
    (∀ j, j < (blocksOf c).length →
      xs[j]? = ((blocksOf c)[j]?).map (fun b => (teaDec k b).xor (before xs j)) ∧
      ps[j]? = (xs[j]?).map (fun x => x.xor (before (blocksOf c) j))) ∧
    decodedFrame k c = ps.flatMap blockBytes ∧ (blocksOf c).flatMap blockBytes = c

/-- R87: ChainDec inverts ChainEnc from every chain state, and both leave the same chain state. -/
def Obligations.ChainDecInvertsChainEnc : Prop :=
  ∀ (k : Key) (c : Chain), (∀ p : Block,
      chainDecStep k c (chainEncStep k c p).1 = (p, (chainEncStep k c p).2)) ∧
    ∀ ps : List Block, chainDec k c (chainEnc k c ps) = ps

/-- R96 item 1: decryption of an encryption gives the plaintext and its length back, for every plaintext
(the empty one too), key and draw. -/
def Obligations.CodecRoundTrip : Prop :=
  ∀ (k : Key) (p : List Byte) (rnd : Draw), codecDec k (codecEnc k p rnd) = .ok (p, p.length)

/-- R80, R94: the ciphertext depends only on r0's bits 7:3 and on the s salt bytes of the draw. -/
def Obligations.DrawLowBitsAreDiscarded : Prop :=
  ∀ (k : Key) (p : List Byte) (r r' : Draw), (r 0).extractLsb' 3 5 = (r' 0).extractLsb' 3 5 →
    (∀ i, 1 ≤ i → i ≤ (8 - p.length % 8) % 8 → r i = r' i) → codecEnc k p r = codecEnc k p r'

/-- R96 item 2: draws that differ in r0's bits 7:3 or in a salt byte give different ciphertexts. -/
def Obligations.DifferentDrawsGiveDifferentCiphertexts : Prop :=
  ∀ (k : Key) (p : List Byte) (r r' : Draw),
    ((r 0).extractLsb' 3 5 ≠ (r' 0).extractLsb' 3 5 ∨
      ∃ i, 1 ≤ i ∧ i ≤ (8 - p.length % 8) % 8 ∧ r i ≠ r' i) →
    codecEnc k p r ≠ codecEnc k p r'

/-- R96 item 3: changing ciphertext block j from c to c' changes frame block j by d, block j+1 by d ^ c ^ c' and
every later block by d, where d = DecBlk(c) ^ DecBlk(c') is not zero; earlier blocks keep. -/
def Obligations.TamperedBlockChangesTheFrame : Prop :=
  ∀ (k : Key) (st : Chain) (pre post : List Block) (c c' d : Block), c ≠ c' →
    d = (teaDec k c).xor (teaDec k c') →
    d ≠ { v0 := 0, v1 := 0 } ∧
    ∀ j, j < pre.length + 1 + post.length →
      ∃ p p', (chainDec k st (pre ++ c :: post))[j]? = some p ∧
        (chainDec k st (pre ++ c' :: post))[j]? = some p' ∧
        p'.xor p =
          (if j < pre.length then { v0 := 0, v1 := 0 }
           else if j = pre.length + 1 then d.xor (c.xor c') else d)

/-- R89, R90, R91: an accepted frame has room for its salt, seven zero check bytes, plaintext length L - 8 - s, and
its salt length is the one R79 computes from that plaintext length. -/
def Obligations.AcceptedFramesAreProducible : Prop :=
  ∀ (fb p : List Byte) (n : Nat), fb.length ≠ 0 → fb.length % 8 = 0 →
    unframe fb fb.length = .ok (p, n) →
    saltOf fb ≤ fb.length - 8 ∧ checkBytesZero fb (saltOf fb) ∧ n = fb.length - 8 - saltOf fb ∧
      p = fb.drop (8 + saltOf fb) ∧ p.length = n ∧ (8 - n % 8) % 8 = saltOf fb

/-! ### Message commands -/

/-- R94: MENC, with its ranges in MSG RAM and its source bytes written, stores the L bytes of CodecEnc at LDST for
the answer the random source gives, sets DLEN to L, completes with success, draws once, changes nothing
else. -/
def Obligations.MencStoresTheCiphertext : Prop :=
  encode .menc = 0x00000003 ∧
  ∀ (s : State) (p : List Byte), s.params.legal = true → mencRanges s →
    holdsBytes s s.latches.lsrc.toNat s.latches.lslen.toNat p →
    ∃ t, exec .menc s = .next t ∧
      holdsBytes t s.latches.ldst.toNat (8 * ((s.latches.lslen.toNat + 15) / 8))
        (codecEnc s.latches.lk p (Config.rngByte s.draws)) ∧
      t.dlen.toNat = 8 * ((s.latches.lslen.toNat + 15) / 8) ∧
      succeeded s t ∧ operandsKept s t ∧ doutKept s t ∧ t.draws = s.draws + 1 ∧
      bytesKeptOutside s.latches.ldst.toNat (8 * ((s.latches.lslen.toNat + 15) / 8)) s t

/-- R94, R101 item 2: MENC with a range outside MSG RAM, or overlapping ranges, raises RANGE_ERROR, draws nothing
and reads no MSG RAM byte (so an unwritten one does not fault). -/
def Obligations.MencRangeError : Prop :=
  ∀ s : State, ¬ mencRanges s → ∃ t, exec .menc s = .next t ∧ messageFailed 0x5 s t

/-- R114 for MENC: with its ranges in MSG RAM, a source byte never written since reset faults the model. -/
def Obligations.MencFaultsOnUnwrittenSource : Prop :=
  ∀ s : State, mencRanges s →
    (∃ i, i < s.latches.lslen.toNat ∧ s.msg.read (s.latches.lsrc.toNat + i) = none) →
    exec .menc s = .fault .engineReadUnwritten

/-- R95: MDEC of a ciphertext whose frame passes its checks, with the destination in MSG RAM and off the source,
stores the n = L - 8 - s plaintext bytes at LDST, sets DLEN to n, completes with success, changes nothing
else. -/
def Obligations.MdecStoresThePlaintext : Prop :=
  encode .mdec = 0x00000004 ∧
  ∀ (s : State) (c fb : List Byte) (n : Nat), s.params.legal = true → mdecSource s c → fb = frameOf s c →
    saltOf fb ≤ s.latches.lslen.toNat - 8 → checkBytesZero fb (saltOf fb) →
    n = s.latches.lslen.toNat - 8 - saltOf fb →
    s.latches.ldst.toNat + n ≤ s.params.msgBytes →
    ¬ overlapping s.latches.lsrc.toNat s.latches.lslen.toNat s.latches.ldst.toNat n →
    ∃ t, exec .mdec s = .next t ∧
      holdsBytes t s.latches.ldst.toNat n (fb.drop (8 + saltOf fb)) ∧ t.dlen.toNat = n ∧
      succeeded s t ∧ operandsKept s t ∧ doutKept s t ∧ t.draws = s.draws ∧
      bytesKeptOutside s.latches.ldst.toNat n s t

/-- R88, R101 item 3: a length of 0, or no multiple of 8, is INVALID_LENGTH, before any range or byte is looked
at. -/
def Obligations.MdecInvalidLength : Prop :=
  ∀ s : State, (s.latches.lslen.toNat = 0 ∨ s.latches.lslen.toNat % 8 ≠ 0) →
    ∃ t, exec .mdec s = .next t ∧ messageFailed 0x2 s t

/-- R95, R101 item 3: a legal length whose source range leaves MSG RAM is RANGE_ERROR; the sum does not wrap
(R93). -/
def Obligations.MdecSourceRangeError : Prop :=
  ∀ s : State, s.latches.lslen.toNat ≠ 0 → s.latches.lslen.toNat % 8 = 0 →
    s.params.msgBytes < s.latches.lsrc.toNat + s.latches.lslen.toNat →
    ∃ t, exec .mdec s = .next t ∧ messageFailed 0x5 s t

/-- R89, R90, R101 item 3: a frame without room for its salt, or with a nonzero zero-check byte, is
INTEGRITY_CHECK_FAILED, whatever the destination is. -/
def Obligations.MdecIntegrityCheckFailed : Prop :=
  ∀ (s : State) (c : List Byte), mdecSource s c →
    (s.latches.lslen.toNat - 8 < saltOf (frameOf s c) ∨
      (saltOf (frameOf s c) ≤ s.latches.lslen.toNat - 8 ∧
        ¬ checkBytesZero (frameOf s c) (saltOf (frameOf s c)))) →
    ∃ t, exec .mdec s = .next t ∧ messageFailed 0x3 s t

/-- R95, R101 item 3: a frame that passes its checks, with a destination outside MSG RAM or overlapping the source,
is RANGE_ERROR. -/
def Obligations.MdecDestinationRangeError : Prop :=
  ∀ (s : State) (c : List Byte) (n : Nat), mdecSource s c →
    saltOf (frameOf s c) ≤ s.latches.lslen.toNat - 8 →
    checkBytesZero (frameOf s c) (saltOf (frameOf s c)) →
    n = s.latches.lslen.toNat - 8 - saltOf (frameOf s c) →
    (s.params.msgBytes < s.latches.ldst.toNat + n ∨
      overlapping s.latches.lsrc.toNat s.latches.lslen.toNat s.latches.ldst.toNat n) →
    ∃ t, exec .mdec s = .next t ∧ messageFailed 0x5 s t

/-- R114 for MDEC: with a legal length and its source in MSG RAM, a source byte never written since reset faults
the model. -/
def Obligations.MdecFaultsOnUnwrittenSource : Prop :=
  ∀ s : State, s.latches.lslen.toNat ≠ 0 → s.latches.lslen.toNat % 8 = 0 →
    s.latches.lsrc.toNat + s.latches.lslen.toNat ≤ s.params.msgBytes →
    (∃ i, i < s.latches.lslen.toNat ∧ s.msg.read (s.latches.lsrc.toNat + i) = none) →
    exec .mdec s = .fault .engineReadUnwritten

/-- From R94, R95 and R96 item 1: MDEC of what a successful MENC stored, under the same key, restores the plaintext
bytes and their number, for every answer of the random source. -/
def Obligations.MencThenMdecRestoresTheMessage : Prop :=
  ∀ (s t u : State) (p : List Byte), s.params.legal = true → mencRanges s →
    holdsBytes s s.latches.lsrc.toNat s.latches.lslen.toNat p → exec .menc s = .next t →
    u.params = s.params → u.msg = t.msg → u.latches.lk = s.latches.lk → u.latches.lsrc = s.latches.ldst →
    u.latches.lslen = t.dlen → u.latches.ldst.toNat + s.latches.lslen.toNat ≤ u.params.msgBytes →
    ¬ overlapping u.latches.lsrc.toNat u.latches.lslen.toNat u.latches.ldst.toNat s.latches.lslen.toNat →
    ∃ v, exec .mdec u = .next v ∧ holdsBytes v u.latches.ldst.toNat s.latches.lslen.toNat p ∧
      v.dlen = s.latches.lslen ∧ succeeded u v

/-! ### All commands -/

/-- R58, R120: the perform step reads only the latches, MSG RAM and the random source (and the parameters, which no
step changes). Two states that agree on these, whatever CMD, STATUS, KEY, DIN, DOUT, SRC, SLEN, DST and DLEN hold in
each, give the same stop or the same results: said of each command, and of the perform step with its LOP. -/
def Obligations.PerformReadsOnlyTheLatches : Prop :=
  ∀ s s' : State, samePerformInputs s s' →
    (∀ i : Instr, sameOutcome (i = .encb ∨ i = .decb) (i = .menc ∨ i = .mdec) s s' (exec i s) (exec i s')) ∧
    sameOutcome (s.latches.lop = 0x00000001 ∨ s.latches.lop = 0x00000002)
      (s.latches.lop = 0x00000003 ∨ s.latches.lop = 0x00000004) s s' (perform s) (perform s')

/-- R59, R60, R98: a command that answers a next state has completed, never refuses, leaves the operand registers
and the agents alone, and its ECODE is 0, 2, 3 or 5, nonzero exactly when ERR = 1. -/
def Obligations.CommandsThatStepHaveCompleted : Prop :=
  ∀ (i : Instr) (s : State),
    (∀ r, exec i s ≠ .refused r) ∧
    ∀ t, exec i s = .next t → t.status.busy = false ∧ t.status.done = true ∧
      t.status.ovr = s.status.ovr ∧ (t.status.err = true ↔ t.status.ecode ≠ 0) ∧
      (t.status.ecode = 0 ∨ t.status.ecode = 2 ∨ t.status.ecode = 3 ∨ t.status.ecode = 5) ∧ operandsKept s t

/-- R102: a command that ends in an error writes no MSG RAM byte, leaves DOUT0 and DOUT1, draws nothing, sets DLEN to
0, and leaves CMD, the operand registers and the agents; an illegal word's BAD_COMMAND leaves DLEN too. -/
def Obligations.FailedCommandsWriteNothingElse : Prop :=
  (∀ (i : Instr) (s t : State), exec i s = .next t → t.status.err = true →
    operandsKept s t ∧ t.msg = s.msg ∧ doutKept s t ∧ t.draws = s.draws ∧ t.dlen = 0) ∧
  ∀ (s : State) (e : DecodeError), decode s.latches.lop = .error e → ∃ t, perform s = .next t ∧
    failedWith 0x4 s t ∧ operandsKept s t ∧ doutKept s t ∧ t.dlen = s.dlen ∧ t.msg = s.msg ∧
      t.draws = s.draws

/-! ### Command words -/

/-- R54, R55: a word decodes to a command exactly when it is that command's word, so each command has one word and
each word at most one command; every word outside 1 to 4 is illegal. -/
def Obligations.DecodeOkIffEncoded : Prop :=
  (∀ (w : Word) (i : Instr), decode w = .ok i ↔ w = encode i) ∧
  ∀ w : Word, (∃ e, decode w = .error e) ↔ (w.toNat = 0 ∨ 5 ≤ w.toNat)

/-- R54: the four words of the opcode map, and some illegal ones, written out. -/
def Obligations.CommandWordsDecode : Prop :=
  decode 0b00000000000000000000000000000001 = .ok .encb ∧
  decode 0b00000000000000000000000000000010 = .ok .decb ∧
  decode 0b00000000000000000000000000000011 = .ok .menc ∧
  decode 0b00000000000000000000000000000100 = .ok .mdec ∧
  decode 0x00000000 = .error .illegalOpcode ∧ decode 0x00000005 = .error .illegalOpcode ∧
  decode 0x0000000F = .error .illegalOpcode ∧ decode 0x00000013 = .error .reservedBits ∧
  decode 0x80000001 = .error .reservedBits

/-! ### Lifecycle -/

/-- R58: when the next step is the engine's and LOP is a command, the step is that command's, once the pending turn,
if any, is taken (the list of turns is the model's, log 4). -/
def Obligations.StepRunsTheDecodedCommand : Prop :=
  ∀ (s : State) (i : Instr), engineNext s → decode s.latches.lop = .ok i →
    step s = exec i (afterTurn s)

/-- R55, R58, R102: when the next step is the engine's and LOP is illegal, the step completes with BAD_COMMAND and
changes nothing but STATUS (the latches, unspecified while idle, and the pending turn, the model's, log 4, apart). -/
def Obligations.StepOfAnIllegalWordIsBadCommand : Prop :=
  ∀ s : State, engineNext s → (s.latches.lop.toNat = 0 ∨ 5 ≤ s.latches.lop.toNat) →
    ∃ t, step s = .next t ∧ failedWith 0x4 s t ∧ operandsKept (afterTurn s) t ∧ doutKept s t ∧
      t.dlen = s.dlen ∧ t.msg = s.msg ∧ t.draws = s.draws

/-- R56: a CMD write while BUSY = 0 issues the word: it and the operand registers are latched, STATUS is BUSY alone,
no result register and no MSG RAM byte changes, and w is not decoded. -/
def Obligations.CmdWriteWhileIdleIssues : Prop :=
  ∀ (s : State) (w : Word), s.status.busy = false →
    ∃ t, hostAccess (.regWrite 0x000 w) s = .next (t, none) ∧ t.cmd = w ∧
      t.latches = { lop := w, lk := s.key, lv0 := s.din0, lv1 := s.din1, lsrc := s.src, lslen := s.slen,
                    ldst := s.dst } ∧
      t.status = { busy := true, done := false, err := false, ovr := false, ecode := 0 } ∧
      t.key = s.key ∧ t.din0 = s.din0 ∧ t.din1 = s.din1 ∧ t.src = s.src ∧ t.slen = s.slen ∧ t.dst = s.dst ∧
      doutKept s t ∧ t.dlen = s.dlen ∧ t.msg = s.msg ∧ t.draws = s.draws ∧ t.params = s.params ∧
      t.hosts = s.hosts ∧ t.turns = s.turns

/-- R57: a CMD write while BUSY = 1 is discarded: OVR becomes 1 and nothing else changes. -/
def Obligations.CmdWriteWhileBusySetsOvr : Prop :=
  ∀ (s : State) (w : Word), s.status.busy = true →
    hostAccess (.regWrite 0x000 w) s = .next ({ s with status := { s.status with ovr := true } }, none)

/-- R104: a CMD write that races a completion has both outcomes. After the completion it issues a new command;
before it, it is discarded, and the command completes as it would have, with OVR = 1. -/
def Obligations.CmdWriteRacingACompletion : Prop :=
  ∀ (s t : State) (w : Word), s.status.busy = true → perform s = .next t →
    (∃ u, hostAccess (.regWrite 0x000 w) t = .next (u, none) ∧ u.status.busy = true ∧ u.latches.lop = w ∧
      u.status.ovr = false) ∧
    (∃ u, hostAccess (.regWrite 0x000 w) s = .next (u, none) ∧
      perform u = .next { t with status := { t.status with ovr := true } })

/-- R18, R25, R24 and R7 over whole steps: no step changes the machine's parameters; BUSY becomes 1 only by a host's
turn and 0 only by the engine's or by reset; DOUT changes only by reset or by the engine's step with ENCB or DECB in
LOP; DIN and KEY only by a host or reset. Whose turn it is, is the model's list of turns (log 4). -/
def Obligations.WhoChangesWhatInAStep : Prop :=
  ∀ s t : State, step s = .next t →
    t.params = s.params ∧
    (s.status.busy = false → t.status.busy = true → ∃ k, nextTurn s = some (.host k)) ∧
    (s.status.busy = true → t.status.busy = false →
      nextTurn s = some .engine ∨ nextTurn s = some .reset) ∧
    (¬ doutKept s t → nextTurn s = some .reset ∨
      (nextTurn s = some .engine ∧ s.status.busy = true ∧
        (s.latches.lop = 0x00000001 ∨ s.latches.lop = 0x00000002))) ∧
    (t.key ≠ s.key ∨ t.din0 ≠ s.din0 ∨ t.din1 ≠ s.din1 →
      nextTurn s = some .reset ∨ ∃ k, nextTurn s = some (.host k))

/-- R122, R123, for the model's list of turns (log 4): within one step more than the turns that are pending, an
issued command completes, is reset away, or the run stops; where no pending turn is a reset and the run does not stop,
it completes, with DONE = 1. -/
def Obligations.IssuedCommandsLeaveFlightOrTheRunStops : Prop :=
  ∀ s : State, s.status.busy = true → ∃ n, n ≤ s.turns.length + 1 ∧
    ∀ t, core.run n s = .next t →
      t.status.busy = false ∧ (Turn.reset ∉ s.turns → t.status.done = true)

/-! ### Host accesses -/

/-- R17: STATUS reads with BUSY in bit 0, DONE in 1, ERR in 2, OVR in 3, ECODE in 7:4 and zero above. -/
def Obligations.StatusLayout : Prop :=
  ∀ s : State, ∃ w, hostAccess (.regRead 0x004) s = .next (s, some (.word w)) ∧
    w.getLsbD 0 = s.status.busy ∧ w.getLsbD 1 = s.status.done ∧ w.getLsbD 2 = s.status.err ∧
    w.getLsbD 3 = s.status.ovr ∧ w.extractLsb' 4 4 = s.status.ecode ∧ w.extractLsb' 8 24 = 0

/-- R47: no read changes anything; a write to a read-only register or to a reserved offset is ignored; repeating
any access but a CMD write changes nothing more (in a canonical MSG RAM, which every step keeps). -/
def Obligations.ReadsAndRepeatsHaveNoSideEffect : Prop :=
  (∀ (x : HostAccess) (s t : State) (r : Option Response), isRead x = true →
    hostAccess x s = .next (t, r) → t = s) ∧
  (∀ (s : State) (o : Nat) (w : Word), (o = 0x004 ∨ o = 0x020 ∨ o = 0x024 ∨ o = 0x034 ∨ 0x038 ≤ o) →
    hostAccess (.regWrite o w) s = .next (s, none)) ∧
  (∀ (x : HostAccess) (s t : State) (r : Option Response), s.Inv → isCmdWrite x = false →
    hostAccess x s = .next (t, r) → hostAccess x t = .next (t, r))

/-- R15, R23, R45: what a register read returns: the register, but 0 from KEY0..KEY3 and from reserved offsets. From
STATUS it is the word of its fields at their places (R17): BUSY 1, DONE 2, ERR 4, OVR 8, ECODE from 16 on. -/
def Obligations.RegisterReads : Prop :=
  ∀ s : State,
    hostAccess (.regRead 0x000) s = .next (s, some (.word s.cmd)) ∧
    (∃ w : Word, hostAccess (.regRead 0x004) s = .next (s, some (.word w)) ∧
      w.toNat = s.status.busy.toNat + 2 * s.status.done.toNat + 4 * s.status.err.toNat +
        8 * s.status.ovr.toNat + 16 * s.status.ecode.toNat) ∧
    (∀ o, (o = 0x008 ∨ o = 0x00C ∨ o = 0x010 ∨ o = 0x014 ∨ 0x038 ≤ o) →
      hostAccess (.regRead o) s = .next (s, some (.word 0))) ∧
    hostAccess (.regRead 0x018) s = .next (s, some (.word s.din0)) ∧
    hostAccess (.regRead 0x01C) s = .next (s, some (.word s.din1)) ∧
    hostAccess (.regRead 0x020) s = .next (s, some (.word s.dout0)) ∧
    hostAccess (.regRead 0x024) s = .next (s, some (.word s.dout1)) ∧
    hostAccess (.regRead 0x028) s = .next (s, some (.word s.src)) ∧
    hostAccess (.regRead 0x02C) s = .next (s, some (.word s.slen)) ∧
    hostAccess (.regRead 0x030) s = .next (s, some (.word s.dst)) ∧
    hostAccess (.regRead 0x034) s = .next (s, some (.word s.dlen))

/-- R23, R24, R26 to R28, R120: an operand write stores all 32 bits, busy or not, in that register alone; STATUS
and the latches of a command in flight do not change. -/
def Obligations.OperandWritesStore : Prop :=
  ∀ (s : State) (w : Word),
    hostAccess (.regWrite 0x008 w) s = .next ({ s with key := { s.key with k0 := w } }, none) ∧
    hostAccess (.regWrite 0x00C w) s = .next ({ s with key := { s.key with k1 := w } }, none) ∧
    hostAccess (.regWrite 0x010 w) s = .next ({ s with key := { s.key with k2 := w } }, none) ∧
    hostAccess (.regWrite 0x014 w) s = .next ({ s with key := { s.key with k3 := w } }, none) ∧
    hostAccess (.regWrite 0x018 w) s = .next ({ s with din0 := w }, none) ∧
    hostAccess (.regWrite 0x01C w) s = .next ({ s with din1 := w }, none) ∧
    hostAccess (.regWrite 0x028 w) s = .next ({ s with src := w }, none) ∧
    hostAccess (.regWrite 0x02C w) s = .next ({ s with slen := w }, none) ∧
    hostAccess (.regWrite 0x030 w) s = .next ({ s with dst := w }, none)

/-- R23, R107: no host access reads a key back: with any other words in KEY0..KEY3 and in LK[0..3], the host sees
the same outcome and the same data. -/
def Obligations.KeysAreNeverReadBack : Prop :=
  ∀ (x : HostAccess) (s : State) (k lk : Key),
    match hostAccess x s with
    | .next (_, r) => ∃ t', hostAccess x { s with key := k, latches := { s.latches with lk := lk } } =
        .next (t', r)
    | .fault f => hostAccess x { s with key := k, latches := { s.latches with lk := lk } } = .fault f
    | .refused r => hostAccess x { s with key := k, latches := { s.latches with lk := lk } } = .refused r

/-- R42: a word written to MSG RAM lies there most significant byte first, is read back whole, and no other byte
changes. -/
def Obligations.MsgWordAccessIsBigEndian : Prop :=
  ∀ (s t : State) (a : Nat) (w : Word) (r : Option Response),
    hostAccess (.msgWriteW a w) s = .next (t, r) →
    hostAccess (.msgReadW a) t = .next (t, some (.word w)) ∧
    hostAccess (.msgReadB a) t = .next (t, some (.byte (w.extractLsb' 24 8))) ∧
    hostAccess (.msgReadB (a + 1)) t = .next (t, some (.byte (w.extractLsb' 16 8))) ∧
    hostAccess (.msgReadB (a + 2)) t = .next (t, some (.byte (w.extractLsb' 8 8))) ∧
    hostAccess (.msgReadB (a + 3)) t = .next (t, some (.byte (w.extractLsb' 0 8))) ∧
    bytesKeptOutside a 4 s t ∧ operandsKept s t ∧ doutKept s t ∧ t.dlen = s.dlen ∧ t.status = s.status ∧
    t.latches = s.latches

/-- R31, R39: a byte written to MSG RAM is marked written and read back, and no other byte changes. -/
def Obligations.MsgByteWriteReadsBack : Prop :=
  ∀ (s t : State) (a : Nat) (b : Byte) (r : Option Response),
    hostAccess (.msgWriteB a b) s = .next (t, r) →
    hostAccess (.msgReadB a) t = .next (t, some (.byte b)) ∧ bytesKeptOutside a 1 s t ∧
    operandsKept s t ∧ doutKept s t ∧ t.dlen = s.dlen ∧ t.status = s.status ∧ t.latches = s.latches

/-- R118: while MENC or MDEC is in flight every host access to MSG RAM faults, a read or a write, at any offset.
While none is (ENCB, DECB, an illegal word, or no command), no access faults for that reason, and every write has its
step. (That this fault comes before R114's for a byte never written is the model's order, log 11.) -/
def Obligations.MsgAccessDuringMessageCommandFaults : Prop :=
  ∀ (x : HostAccess) (s : State), isMsgAccess x = true →
    ((s.status.busy = true ∧ (s.latches.lop = 0x00000003 ∨ s.latches.lop = 0x00000004)) →
      hostAccess x s = .fault .msgAccessInFlight) ∧
    (¬ (s.status.busy = true ∧ (s.latches.lop = 0x00000003 ∨ s.latches.lop = 0x00000004)) →
      hostAccess x s ≠ .fault .msgAccessInFlight ∧
      (isRead x = false → ∃ t, hostAccess x s = .next (t, none)))

/-- R114 for hosts: with no message command in flight, a read that covers a byte never written since reset faults,
and a read of written bytes returns them. -/
def Obligations.HostReadOfUnwrittenByteFaults : Prop :=
  ∀ (s : State) (a : Nat),
    ¬ (s.status.busy = true ∧ (s.latches.lop = 0x00000003 ∨ s.latches.lop = 0x00000004)) →
    (s.msg.read a = none → hostAccess (.msgReadB a) s = .fault .hostReadUnwritten) ∧
    (∀ b, s.msg.read a = some b → hostAccess (.msgReadB a) s = .next (s, some (.byte b))) ∧
    ((∃ i, i < 4 ∧ s.msg.read (a + i) = none) → hostAccess (.msgReadW a) s = .fault .hostReadUnwritten) ∧
    (∀ b0 b1 b2 b3, holdsBytes s a 4 [b0, b1, b2, b3] →
      hostAccess (.msgReadW a) s = .next (s, some (.word (be32 b0 b1 b2 b3))))

/-- R39: every admitted transaction is decoded to its access, at offsets from BASE. -/
def Obligations.AdmittedAccessesDecode : Prop :=
  ∀ (s : State) (o a data : Nat),
    (o ≤ 0xFFC → o % 4 = 0 →
      decodeAccess s.params.base s.params.msgBytes (.read 32 (s.params.base + o)) = .ok (.regRead o) ∧
      decodeAccess s.params.base s.params.msgBytes (.write 32 (s.params.base + o) data) =
        .ok (.regWrite o (BitVec.ofNat 32 data))) ∧
    (a < s.params.msgBytes →
      decodeAccess s.params.base s.params.msgBytes (.read 8 (s.params.base + 0x1000 + a)) = .ok (.msgReadB a) ∧
      decodeAccess s.params.base s.params.msgBytes (.write 8 (s.params.base + 0x1000 + a) data) =
        .ok (.msgWriteB a (BitVec.ofNat 8 data))) ∧
    (a + 4 ≤ s.params.msgBytes → a % 4 = 0 →
      decodeAccess s.params.base s.params.msgBytes (.read 32 (s.params.base + 0x1000 + a)) = .ok (.msgReadW a) ∧
      decodeAccess s.params.base s.params.msgBytes (.write 32 (s.params.base + 0x1000 + a) data) =
        .ok (.msgWriteW a (BitVec.ofNat 32 data)))

/-- R43, R44: a transaction of a width that is not admitted where it goes, or of 32 bits and misaligned, is refused.
That one outside the window is refused too (R38 leaves it to the platform), and that a refusal comes before any fault,
whatever the state is, are the model's choices (log 2, log 11). -/
def Obligations.OtherAccessesAreRefused : Prop :=
  ∀ (s : State) (t : BusAccess) (width addr : Nat), s.params.legal = true →
    (t = .read width addr ∨ ∃ data, t = .write width addr data) →
    (addr < s.params.base ∨ s.params.base + 0x1000 + s.params.msgBytes ≤ addr ∨
      (addr < s.params.base + 0x1000 ∧ width ≠ 32) ∨ (width ≠ 8 ∧ width ≠ 32) ∨ (width = 32 ∧ addr % 4 ≠ 0)) →
    ∃ r, busAccess t s = .refused r

/-- R64, R65: `poll` at line l stays at l while BUSY = 1 and goes on once BUSY = 0, reading STATUS and changing
nothing of the engine. Hosts and turns are held in the model's way (log 4, 7, 12). -/
def Obligations.PollWaitsForCompletion : Prop :=
  ∀ (s : State) (k : Nat) (h : HostAgent), s.hosts[k]? = some h →
    h.program[h.line]? = some (HostLine.poll h.line) → nextTurn s = some (.host k) →
    step s = .next (hostMoved (afterTurn s) k h (if s.status.busy then h.line else h.line + 1)
      (some (.word s.status.toWord)))

/-- R48, R64, R66: a host's step is the access its next line makes, on the state once the pending turn, if any, is
taken. The host then goes on at the next line, or at the target of a `bbs` whose bit reads 1, and has the data its read
returned. Where the access faults the step faults, and where the line's transaction is no admitted access the step is
refused. Hosts and turns are held in the model's way (log 4, 7, 12); a register line with an offset of 0x1000 or more is
the MSG RAM access that its transaction is (log 21). -/
def Obligations.StepRunsTheHostsLine : Prop :=
  ∀ (s : State) (k : Nat) (h : HostAgent), s.hosts[k]? = some h → nextTurn s = some (.host k) →
    (∀ t x u r, h.program[h.line]? = some (.bus t) →
      decodeAccess s.params.base s.params.msgBytes t = .ok x → hostAccess x (afterTurn s) = .next (u, r) →
      step s = .next (hostMoved u k h (h.line + 1) r)) ∧
    (∀ o bit target w, h.program[h.line]? = some (.bbs o bit target) → o ≤ 0xFFC → o % 4 = 0 →
      hostAccess (.regRead o) (afterTurn s) = .next (afterTurn s, some (.word w)) →
      step s = .next (hostMoved (afterTurn s) k h (if w.getLsbD bit then target else h.line + 1)
        (some (.word w)))) ∧
    (∀ o bit target x u w, h.program[h.line]? = some (.bbs o bit target) →
      decodeAccess s.params.base s.params.msgBytes (.read 32 (s.params.base + o)) = .ok x →
      hostAccess x (afterTurn s) = .next (u, some (.word w)) →
      step s = .next (hostMoved u k h (if w.getLsbD bit then target else h.line + 1) (some (.word w)))) ∧
    (∀ l x f, h.program[h.line]? = some l →
      decodeAccess s.params.base s.params.msgBytes (lineTransaction s.params.base l) = .ok x →
      hostAccess x (afterTurn s) = .fault f → step s = .fault f) ∧
    (∀ l r, h.program[h.line]? = some l →
      decodeAccess s.params.base s.params.msgBytes (lineTransaction s.params.base l) = .error r →
      step s = .refused r)

/-! ### Reset and the invariant -/

/-- R113: reset, at any step, sets every register to 0 and STATUS to idle, unwrites every MSG RAM byte, leaves the
latches unspecified, and abandons a command in flight: the engine has no step. That reset is a turn, and the form of
the unspecified latches, are the model's (log 4, 5). -/
def Obligations.ResetClearsEverything : Prop :=
  ∀ (s : State) (ts : List Turn), s.turns = .reset :: ts → ∃ t, step s = .next t ∧
    t.cmd = 0 ∧ t.status.toWord = 0 ∧ t.key = { k0 := 0, k1 := 0, k2 := 0, k3 := 0 } ∧ t.din0 = 0 ∧
    t.din1 = 0 ∧ t.dout0 = 0 ∧ t.dout1 = 0 ∧ t.src = 0 ∧ t.slen = 0 ∧ t.dst = 0 ∧ t.dlen = 0 ∧
    t.status = { busy := false, done := false, err := false, ovr := false, ecode := 0 } ∧
    t.latches = Latches.unspecified s.latchDraws ∧ engineTurn t = .next t ∧
    (∀ a, t.msg.read a = none) ∧ t.params = s.params

/-- R113, R115: after power-on reset every register reads 0 and no MSG RAM byte is written. That the machine then
changes nothing until a host acts is the model's idle step (log 8). -/
def Obligations.ResetStateIsIdle : Prop :=
  (∀ o, hostAccess (.regRead o) State.reset = .next (State.reset, some (.word 0))) ∧
  (∀ a, State.reset.msg.read a = none) ∧ State.reset.status.busy = false ∧
  step State.reset = .next State.reset

/-- R116: a command may be issued at the first step after reset, with the reset operands: ENCB gives the R78
fixture, MENC writes 8 bytes at offset 0, MDEC raises INVALID_LENGTH. -/
def Obligations.CommandsRunStraightAfterReset : Prop :=
  (∃ t, perform (issue 0x00000001 State.reset) = .next t ∧ t.dout0 = 0x41EA3A0A ∧ t.dout1 = 0x94BAA940) ∧
  (∃ t, perform (issue 0x00000003 State.reset) = .next t ∧ t.dlen = 8 ∧ t.status.err = false ∧
    (∀ a, a < 8 → t.msg.read a ≠ none) ∧ ∀ a, 8 ≤ a → t.msg.read a = none) ∧
  (∃ t, perform (issue 0x00000004 State.reset) = .next t ∧ t.status.err = true ∧ t.status.ecode = 0x2)

/-- The invariant `State.Inv` holds after reset. -/
def Obligations.InvHoldsAtReset : Prop := State.reset.Inv

/-- Every step keeps the invariant `State.Inv`: the parameters are legal; ECODE is a code that is produced, and
nonzero exactly when ERR = 1; while BUSY = 1, DONE and ERR are 0; while BUSY and DONE are 0, so are ERR and OVR, and
CMD is 0; MSG RAM is canonical and inside MSG_BYTES; a command in flight is the last accepted word. -/
def Obligations.StepKeepsInv : Prop := ∀ s t : State, s.Inv → step s = .next t → t.Inv
end

