-- ==== Sys2Proof/Laws/State.lean ====
section
/-! SUPPORT. One simp lemma per field per update of State, so that no later proof unfolds a record update. -/

namespace Sys2Proof.Machine

@[simp] theorem issue_params (w : Word) (s : State) : (issue w s).params = s.params := rfl
@[simp] theorem issue_cmd (w : Word) (s : State) : (issue w s).cmd = w := rfl
@[simp] theorem issue_status (w : Word) (s : State) : (issue w s).status = Status.issued := rfl
@[simp] theorem issue_key (w : Word) (s : State) : (issue w s).key = s.key := rfl
@[simp] theorem issue_din0 (w : Word) (s : State) : (issue w s).din0 = s.din0 := rfl
@[simp] theorem issue_din1 (w : Word) (s : State) : (issue w s).din1 = s.din1 := rfl
@[simp] theorem issue_dout0 (w : Word) (s : State) : (issue w s).dout0 = s.dout0 := rfl
@[simp] theorem issue_dout1 (w : Word) (s : State) : (issue w s).dout1 = s.dout1 := rfl
@[simp] theorem issue_src (w : Word) (s : State) : (issue w s).src = s.src := rfl
@[simp] theorem issue_slen (w : Word) (s : State) : (issue w s).slen = s.slen := rfl
@[simp] theorem issue_dst (w : Word) (s : State) : (issue w s).dst = s.dst := rfl
@[simp] theorem issue_dlen (w : Word) (s : State) : (issue w s).dlen = s.dlen := rfl
@[simp] theorem issue_msg (w : Word) (s : State) : (issue w s).msg = s.msg := rfl
@[simp] theorem issue_latches (w : Word) (s : State) : (issue w s).latches = latchOperands w s := rfl
@[simp] theorem issue_draws (w : Word) (s : State) : (issue w s).draws = s.draws := rfl
@[simp] theorem issue_latchDraws (w : Word) (s : State) : (issue w s).latchDraws = s.latchDraws := rfl
@[simp] theorem issue_hosts (w : Word) (s : State) : (issue w s).hosts = s.hosts := rfl
@[simp] theorem issue_turns (w : Word) (s : State) : (issue w s).turns = s.turns := rfl

@[simp] theorem complete_params (o : Option ErrorCode) (s : State) : (complete o s).params = s.params := rfl
@[simp] theorem complete_cmd (o : Option ErrorCode) (s : State) : (complete o s).cmd = s.cmd := rfl
@[simp] theorem complete_status (o : Option ErrorCode) (s : State) : (complete o s).status = s.status.completed o := rfl
@[simp] theorem complete_key (o : Option ErrorCode) (s : State) : (complete o s).key = s.key := rfl
@[simp] theorem complete_din0 (o : Option ErrorCode) (s : State) : (complete o s).din0 = s.din0 := rfl
@[simp] theorem complete_din1 (o : Option ErrorCode) (s : State) : (complete o s).din1 = s.din1 := rfl
@[simp] theorem complete_dout0 (o : Option ErrorCode) (s : State) : (complete o s).dout0 = s.dout0 := rfl
@[simp] theorem complete_dout1 (o : Option ErrorCode) (s : State) : (complete o s).dout1 = s.dout1 := rfl
@[simp] theorem complete_src (o : Option ErrorCode) (s : State) : (complete o s).src = s.src := rfl
@[simp] theorem complete_slen (o : Option ErrorCode) (s : State) : (complete o s).slen = s.slen := rfl
@[simp] theorem complete_dst (o : Option ErrorCode) (s : State) : (complete o s).dst = s.dst := rfl
@[simp] theorem complete_dlen (o : Option ErrorCode) (s : State) : (complete o s).dlen = s.dlen := rfl
@[simp] theorem complete_msg (o : Option ErrorCode) (s : State) : (complete o s).msg = s.msg := rfl
@[simp] theorem complete_latches (o : Option ErrorCode) (s : State) : (complete o s).latches = Latches.unspecified s.latchDraws := rfl
@[simp] theorem complete_draws (o : Option ErrorCode) (s : State) : (complete o s).draws = s.draws := rfl
@[simp] theorem complete_latchDraws (o : Option ErrorCode) (s : State) : (complete o s).latchDraws = s.latchDraws + 1 := rfl
@[simp] theorem complete_hosts (o : Option ErrorCode) (s : State) : (complete o s).hosts = s.hosts := rfl
@[simp] theorem complete_turns (o : Option ErrorCode) (s : State) : (complete o s).turns = s.turns := rfl

@[simp] theorem failWrites_params (e : ErrorCode) (s : State) : (failWrites e s).params = s.params := by cases e <;> rfl
@[simp] theorem failWrites_cmd (e : ErrorCode) (s : State) : (failWrites e s).cmd = s.cmd := by cases e <;> rfl
@[simp] theorem failWrites_status (e : ErrorCode) (s : State) : (failWrites e s).status = s.status := by cases e <;> rfl
@[simp] theorem failWrites_key (e : ErrorCode) (s : State) : (failWrites e s).key = s.key := by cases e <;> rfl
@[simp] theorem failWrites_din0 (e : ErrorCode) (s : State) : (failWrites e s).din0 = s.din0 := by cases e <;> rfl
@[simp] theorem failWrites_din1 (e : ErrorCode) (s : State) : (failWrites e s).din1 = s.din1 := by cases e <;> rfl
@[simp] theorem failWrites_dout0 (e : ErrorCode) (s : State) : (failWrites e s).dout0 = s.dout0 := by cases e <;> rfl
@[simp] theorem failWrites_dout1 (e : ErrorCode) (s : State) : (failWrites e s).dout1 = s.dout1 := by cases e <;> rfl
@[simp] theorem failWrites_src (e : ErrorCode) (s : State) : (failWrites e s).src = s.src := by cases e <;> rfl
@[simp] theorem failWrites_slen (e : ErrorCode) (s : State) : (failWrites e s).slen = s.slen := by cases e <;> rfl
@[simp] theorem failWrites_dst (e : ErrorCode) (s : State) : (failWrites e s).dst = s.dst := by cases e <;> rfl
@[simp] theorem failWrites_msg (e : ErrorCode) (s : State) : (failWrites e s).msg = s.msg := by cases e <;> rfl
@[simp] theorem failWrites_latches (e : ErrorCode) (s : State) : (failWrites e s).latches = s.latches := by cases e <;> rfl
@[simp] theorem failWrites_draws (e : ErrorCode) (s : State) : (failWrites e s).draws = s.draws := by cases e <;> rfl
@[simp] theorem failWrites_latchDraws (e : ErrorCode) (s : State) : (failWrites e s).latchDraws = s.latchDraws := by cases e <;> rfl
@[simp] theorem failWrites_hosts (e : ErrorCode) (s : State) : (failWrites e s).hosts = s.hosts := by cases e <;> rfl
@[simp] theorem failWrites_turns (e : ErrorCode) (s : State) : (failWrites e s).turns = s.turns := by cases e <;> rfl
theorem failWrites_dlen (e : ErrorCode) (s : State) (h : e ≠ .badCommand) : (failWrites e s).dlen = 0 := by
  cases e <;> first | rfl | exact absurd rfl h

@[simp] theorem raise_params (e : ErrorCode) (s : State) : (raise e s).params = s.params := by cases e <;> rfl
@[simp] theorem raise_cmd (e : ErrorCode) (s : State) : (raise e s).cmd = s.cmd := by cases e <;> rfl
@[simp] theorem raise_status (e : ErrorCode) (s : State) : (raise e s).status = s.status.completed (some e) := by cases e <;> rfl
@[simp] theorem raise_key (e : ErrorCode) (s : State) : (raise e s).key = s.key := by cases e <;> rfl
@[simp] theorem raise_din0 (e : ErrorCode) (s : State) : (raise e s).din0 = s.din0 := by cases e <;> rfl
@[simp] theorem raise_din1 (e : ErrorCode) (s : State) : (raise e s).din1 = s.din1 := by cases e <;> rfl
@[simp] theorem raise_dout0 (e : ErrorCode) (s : State) : (raise e s).dout0 = s.dout0 := by cases e <;> rfl
@[simp] theorem raise_dout1 (e : ErrorCode) (s : State) : (raise e s).dout1 = s.dout1 := by cases e <;> rfl
@[simp] theorem raise_src (e : ErrorCode) (s : State) : (raise e s).src = s.src := by cases e <;> rfl
@[simp] theorem raise_slen (e : ErrorCode) (s : State) : (raise e s).slen = s.slen := by cases e <;> rfl
@[simp] theorem raise_dst (e : ErrorCode) (s : State) : (raise e s).dst = s.dst := by cases e <;> rfl
@[simp] theorem raise_msg (e : ErrorCode) (s : State) : (raise e s).msg = s.msg := by cases e <;> rfl
@[simp] theorem raise_latches (e : ErrorCode) (s : State) : (raise e s).latches = Latches.unspecified s.latchDraws := by cases e <;> rfl
@[simp] theorem raise_draws (e : ErrorCode) (s : State) : (raise e s).draws = s.draws := by cases e <;> rfl
@[simp] theorem raise_latchDraws (e : ErrorCode) (s : State) : (raise e s).latchDraws = s.latchDraws + 1 := by cases e <;> rfl
@[simp] theorem raise_hosts (e : ErrorCode) (s : State) : (raise e s).hosts = s.hosts := by cases e <;> rfl
@[simp] theorem raise_turns (e : ErrorCode) (s : State) : (raise e s).turns = s.turns := by cases e <;> rfl
@[simp] theorem raise_badCommand_dlen (s : State) : (raise .badCommand s).dlen = s.dlen := rfl
theorem raise_dlen (e : ErrorCode) (s : State) (h : e ≠ .badCommand) : (raise e s).dlen = 0 := by
  simp [raise, failWrites_dlen e s h]

@[simp] theorem writeDout_params (b : Block) (s : State) : (writeDout b s).params = s.params := rfl
@[simp] theorem writeDout_cmd (b : Block) (s : State) : (writeDout b s).cmd = s.cmd := rfl
@[simp] theorem writeDout_status (b : Block) (s : State) : (writeDout b s).status = s.status := rfl
@[simp] theorem writeDout_key (b : Block) (s : State) : (writeDout b s).key = s.key := rfl
@[simp] theorem writeDout_din0 (b : Block) (s : State) : (writeDout b s).din0 = s.din0 := rfl
@[simp] theorem writeDout_din1 (b : Block) (s : State) : (writeDout b s).din1 = s.din1 := rfl
@[simp] theorem writeDout_dout0 (b : Block) (s : State) : (writeDout b s).dout0 = b.v0 := rfl
@[simp] theorem writeDout_dout1 (b : Block) (s : State) : (writeDout b s).dout1 = b.v1 := rfl
@[simp] theorem writeDout_src (b : Block) (s : State) : (writeDout b s).src = s.src := rfl
@[simp] theorem writeDout_slen (b : Block) (s : State) : (writeDout b s).slen = s.slen := rfl
@[simp] theorem writeDout_dst (b : Block) (s : State) : (writeDout b s).dst = s.dst := rfl
@[simp] theorem writeDout_dlen (b : Block) (s : State) : (writeDout b s).dlen = s.dlen := rfl
@[simp] theorem writeDout_msg (b : Block) (s : State) : (writeDout b s).msg = s.msg := rfl
@[simp] theorem writeDout_latches (b : Block) (s : State) : (writeDout b s).latches = s.latches := rfl
@[simp] theorem writeDout_draws (b : Block) (s : State) : (writeDout b s).draws = s.draws := rfl
@[simp] theorem writeDout_latchDraws (b : Block) (s : State) : (writeDout b s).latchDraws = s.latchDraws := rfl
@[simp] theorem writeDout_hosts (b : Block) (s : State) : (writeDout b s).hosts = s.hosts := rfl
@[simp] theorem writeDout_turns (b : Block) (s : State) : (writeDout b s).turns = s.turns := rfl

@[simp] theorem storeMessage_params (p : List Byte) (n : Nat) (s : State) : (storeMessage p n s).params = s.params := rfl
@[simp] theorem storeMessage_cmd (p : List Byte) (n : Nat) (s : State) : (storeMessage p n s).cmd = s.cmd := rfl
@[simp] theorem storeMessage_status (p : List Byte) (n : Nat) (s : State) : (storeMessage p n s).status = s.status := rfl
@[simp] theorem storeMessage_key (p : List Byte) (n : Nat) (s : State) : (storeMessage p n s).key = s.key := rfl
@[simp] theorem storeMessage_din0 (p : List Byte) (n : Nat) (s : State) : (storeMessage p n s).din0 = s.din0 := rfl
@[simp] theorem storeMessage_din1 (p : List Byte) (n : Nat) (s : State) : (storeMessage p n s).din1 = s.din1 := rfl
@[simp] theorem storeMessage_dout0 (p : List Byte) (n : Nat) (s : State) : (storeMessage p n s).dout0 = s.dout0 := rfl
@[simp] theorem storeMessage_dout1 (p : List Byte) (n : Nat) (s : State) : (storeMessage p n s).dout1 = s.dout1 := rfl
@[simp] theorem storeMessage_src (p : List Byte) (n : Nat) (s : State) : (storeMessage p n s).src = s.src := rfl
@[simp] theorem storeMessage_slen (p : List Byte) (n : Nat) (s : State) : (storeMessage p n s).slen = s.slen := rfl
@[simp] theorem storeMessage_dst (p : List Byte) (n : Nat) (s : State) : (storeMessage p n s).dst = s.dst := rfl
@[simp] theorem storeMessage_dlen (p : List Byte) (n : Nat) (s : State) : (storeMessage p n s).dlen = BitVec.ofNat 32 n := rfl
@[simp] theorem storeMessage_msg (p : List Byte) (n : Nat) (s : State) : (storeMessage p n s).msg = s.msg.writeBytes s.latches.dstAt p := rfl
@[simp] theorem storeMessage_latches (p : List Byte) (n : Nat) (s : State) : (storeMessage p n s).latches = s.latches := rfl
@[simp] theorem storeMessage_draws (p : List Byte) (n : Nat) (s : State) : (storeMessage p n s).draws = s.draws := rfl
@[simp] theorem storeMessage_latchDraws (p : List Byte) (n : Nat) (s : State) : (storeMessage p n s).latchDraws = s.latchDraws := rfl
@[simp] theorem storeMessage_hosts (p : List Byte) (n : Nat) (s : State) : (storeMessage p n s).hosts = s.hosts := rfl
@[simp] theorem storeMessage_turns (p : List Byte) (n : Nat) (s : State) : (storeMessage p n s).turns = s.turns := rfl

@[simp] theorem resetEngine_params (s : State) : (resetEngine s).params = s.params := rfl
@[simp] theorem resetEngine_cmd (s : State) : (resetEngine s).cmd = 0 := rfl
@[simp] theorem resetEngine_status (s : State) : (resetEngine s).status = State.reset.status := rfl
@[simp] theorem resetEngine_key (s : State) : (resetEngine s).key = State.reset.key := rfl
@[simp] theorem resetEngine_din0 (s : State) : (resetEngine s).din0 = 0 := rfl
@[simp] theorem resetEngine_din1 (s : State) : (resetEngine s).din1 = 0 := rfl
@[simp] theorem resetEngine_dout0 (s : State) : (resetEngine s).dout0 = 0 := rfl
@[simp] theorem resetEngine_dout1 (s : State) : (resetEngine s).dout1 = 0 := rfl
@[simp] theorem resetEngine_src (s : State) : (resetEngine s).src = 0 := rfl
@[simp] theorem resetEngine_slen (s : State) : (resetEngine s).slen = 0 := rfl
@[simp] theorem resetEngine_dst (s : State) : (resetEngine s).dst = 0 := rfl
@[simp] theorem resetEngine_dlen (s : State) : (resetEngine s).dlen = 0 := rfl
@[simp] theorem resetEngine_msg (s : State) : (resetEngine s).msg = [] := rfl
@[simp] theorem resetEngine_latches (s : State) : (resetEngine s).latches = Latches.unspecified s.latchDraws := rfl
@[simp] theorem resetEngine_draws (s : State) : (resetEngine s).draws = s.draws := rfl
@[simp] theorem resetEngine_latchDraws (s : State) : (resetEngine s).latchDraws = s.latchDraws + 1 := rfl
@[simp] theorem resetEngine_hosts (s : State) : (resetEngine s).hosts = s.hosts := rfl
@[simp] theorem resetEngine_turns (s : State) : (resetEngine s).turns = s.turns := rfl

@[simp] theorem takeTurn_params (s : State) : (takeTurn s).params = s.params := rfl
@[simp] theorem takeTurn_cmd (s : State) : (takeTurn s).cmd = s.cmd := rfl
@[simp] theorem takeTurn_status (s : State) : (takeTurn s).status = s.status := rfl
@[simp] theorem takeTurn_key (s : State) : (takeTurn s).key = s.key := rfl
@[simp] theorem takeTurn_din0 (s : State) : (takeTurn s).din0 = s.din0 := rfl
@[simp] theorem takeTurn_din1 (s : State) : (takeTurn s).din1 = s.din1 := rfl
@[simp] theorem takeTurn_dout0 (s : State) : (takeTurn s).dout0 = s.dout0 := rfl
@[simp] theorem takeTurn_dout1 (s : State) : (takeTurn s).dout1 = s.dout1 := rfl
@[simp] theorem takeTurn_src (s : State) : (takeTurn s).src = s.src := rfl
@[simp] theorem takeTurn_slen (s : State) : (takeTurn s).slen = s.slen := rfl
@[simp] theorem takeTurn_dst (s : State) : (takeTurn s).dst = s.dst := rfl
@[simp] theorem takeTurn_dlen (s : State) : (takeTurn s).dlen = s.dlen := rfl
@[simp] theorem takeTurn_msg (s : State) : (takeTurn s).msg = s.msg := rfl
@[simp] theorem takeTurn_latches (s : State) : (takeTurn s).latches = s.latches := rfl
@[simp] theorem takeTurn_draws (s : State) : (takeTurn s).draws = s.draws := rfl
@[simp] theorem takeTurn_latchDraws (s : State) : (takeTurn s).latchDraws = s.latchDraws := rfl
@[simp] theorem takeTurn_hosts (s : State) : (takeTurn s).hosts = s.hosts := rfl
@[simp] theorem takeTurn_turns (s : State) : (takeTurn s).turns = s.turns.tail := rfl

@[simp] theorem completed_busy (o : Option ErrorCode) (t : Status) : (t.completed o).busy = false := rfl
@[simp] theorem completed_done (o : Option ErrorCode) (t : Status) : (t.completed o).done = true := rfl
@[simp] theorem completed_err (o : Option ErrorCode) (t : Status) : (t.completed o).err = o.isSome := rfl
@[simp] theorem completed_ovr (o : Option ErrorCode) (t : Status) : (t.completed o).ovr = t.ovr := rfl
@[simp] theorem completed_ecode (o : Option ErrorCode) (t : Status) : (t.completed o).ecode = ecodeOf o := rfl
@[simp] theorem overrun_ovr (t : Status) : t.overrun.ovr = true := rfl
@[simp] theorem overrun_busy (t : Status) : t.overrun.busy = t.busy := rfl
@[simp] theorem overrun_done (t : Status) : t.overrun.done = t.done := rfl
@[simp] theorem overrun_err (t : Status) : t.overrun.err = t.err := rfl
@[simp] theorem overrun_ecode (t : Status) : t.overrun.ecode = t.ecode := rfl
@[simp] theorem ecodeOf_none : ecodeOf none = 0 := rfl
@[simp] theorem ecodeOf_some (e : ErrorCode) : ecodeOf (some e) = e.code := rfl

end Sys2Proof.Machine
end

