-- ==== Sys2Proof/Laws/BlockEngine.lean ====
section
/-! SUPPORT. The Block Engine: one decryption cycle undoes one encryption cycle and the other way round, and how
cycles compose (40_block_engine.md R69 to R71). -/

namespace Sys2Proof.Machine

@[simp] theorem encCycle_sum (k : Key) (t : TeaWork) : (encCycle k t).sum = DELTA + t.sum := rfl
@[simp] theorem decCycle_sum (k : Key) (t : TeaWork) : (decCycle k t).sum = t.sum - DELTA := rfl

/-- Decryption's cycle undoes encryption's (R71). -/
theorem decCycle_encCycle (k : Key) (t : TeaWork) : decCycle k (encCycle k t) = t := by
  obtain ⟨sum, v0, v1⟩ := t
  have h : DELTA + sum - DELTA = sum := by rw [BitVec.add_comm, BitVec.add_sub_cancel]
  simp [encCycle, decCycle, h]

/-- Encryption's cycle undoes decryption's (R71). -/
theorem encCycle_decCycle (k : Key) (t : TeaWork) : encCycle k (decCycle k t) = t := by
  obtain ⟨sum, v0, v1⟩ := t
  have h : DELTA + (sum - DELTA) = sum := by rw [BitVec.add_comm, BitVec.sub_add_cancel]
  simp [encCycle, decCycle, h]

/-- The last of n + 1 cycles, taken out at the end. -/
theorem encCycles_succ (k : Key) (n : Nat) (t : TeaWork) :
    encCycles k (n + 1) t = encCycle k (encCycles k n t) := by
  induction n generalizing t with
  | zero => rfl
  | succ n ih => exact ih (encCycle k t)

theorem decCycles_succ (k : Key) (n : Nat) (t : TeaWork) :
    decCycles k (n + 1) t = decCycle k (decCycles k n t) := by
  induction n generalizing t with
  | zero => rfl
  | succ n ih => exact ih (decCycle k t)

theorem decCycles_encCycles (k : Key) (n : Nat) (t : TeaWork) :
    decCycles k n (encCycles k n t) = t := by
  induction n generalizing t with
  | zero => rfl
  | succ n ih => rw [encCycles_succ, decCycles, decCycle_encCycle, ih]

theorem encCycles_decCycles (k : Key) (n : Nat) (t : TeaWork) :
    encCycles k n (decCycles k n t) = t := by
  induction n generalizing t with
  | zero => rfl
  | succ n ih => rw [decCycles_succ, encCycles, encCycle_decCycle, ih]

/-- After n encryption cycles the accumulator has grown by n * DELTA. -/
theorem encCycles_sum (k : Key) (n : Nat) (t : TeaWork) :
    (encCycles k n t).sum = t.sum + BitVec.ofNat 32 n * DELTA := by
  induction n with
  | zero => simp [encCycles]
  | succ n ih =>
    rw [encCycles_succ, encCycle_sum, ih, BitVec.add_comm DELTA, BitVec.ofNat_add, BitVec.add_mul,
      BitVec.add_assoc]
    simp

/-- After n decryption cycles the accumulator has shrunk by n * DELTA. -/
theorem decCycles_sum (k : Key) (n : Nat) (t : TeaWork) :
    (decCycles k n t).sum = t.sum - BitVec.ofNat 32 n * DELTA := by
  induction n with
  | zero => simp [decCycles]
  | succ n ih =>
    rw [decCycles_succ, decCycle_sum, ih, BitVec.ofNat_add, BitVec.add_mul]
    generalize BitVec.ofNat 32 n * DELTA = x
    rw [BitVec.one_mul, BitVec.sub_sub]

end Sys2Proof.Machine
end

