-- ==== Sys2Proof/Laws/Bytes.lean ====
section
/-! SUPPORT. Byte order (20_memory.md R40): BE32 and UNBE32 undo each other, and so do blocks and byte strings. -/

namespace Sys2Proof.Machine

theorem unbe32_be32 (b0 b1 b2 b3 : Byte) : unbe32 (be32 b0 b1 b2 b3) = [b0, b1, b2, b3] := by
  simp only [unbe32, be32, List.cons.injEq, and_true]
  refine ⟨?_, ?_, ?_, ?_⟩ <;>
    · ext i hi
      simp only [← BitVec.getLsbD_eq_getElem]
      have : i = 0 ∨ i = 1 ∨ i = 2 ∨ i = 3 ∨ i = 4 ∨ i = 5 ∨ i = 6 ∨ i = 7 := by omega
      rcases this with rfl | rfl | rfl | rfl | rfl | rfl | rfl | rfl <;> simp

theorem be32_unbe32 (w : Word) :
    be32 (w.extractLsb' 24 8) (w.extractLsb' 16 8) (w.extractLsb' 8 8) (w.extractLsb' 0 8) = w := by
  ext i hi
  simp only [be32, ← BitVec.getLsbD_eq_getElem]
  by_cases h8 : i < 8
  · simp [h8, show i < 16 by omega, show i < 24 by omega, hi]
  · by_cases h16 : i < 16
    · simp [h8, h16, show i < 24 by omega, show i - 8 < 8 by omega, show 8 + (i - 8) = i by omega, hi]
    · by_cases h24 : i < 24
      · simp [h8, h16, h24, show i - 16 < 8 by omega, show 16 + (i - 16) = i by omega,
          show ¬ i - 8 < 8 by omega, hi]
      · simp [h8, h16, h24, show i - 24 < 8 by omega, show 24 + (i - 24) = i by omega,
          show ¬ i - 8 < 8 by omega, show ¬ i - 16 < 8 by omega, hi]

@[simp] theorem unbe32_length (w : Word) : (unbe32 w).length = 4 := rfl
@[simp] theorem toBytes_length (b : Block) : b.toBytes.length = 8 := rfl
@[simp] theorem bytesOf_nil : bytesOf [] = [] := rfl
@[simp] theorem bytesOf_cons (b : Block) (bs : List Block) :
    bytesOf (b :: bs) = b.toBytes ++ bytesOf bs := rfl

@[simp] theorem bytesOf_length (bs : List Block) : (bytesOf bs).length = 8 * bs.length := by
  induction bs with
  | nil => rfl
  | cons b bs ih => simp [ih]; omega

/-- The first 8 bytes of a byte string make its first block. -/
theorem blocksOf_toBytes (b : Block) (rest : List Byte) :
    blocksOf (b.toBytes ++ rest) = b :: blocksOf rest := by
  simp [Block.toBytes, unbe32, blocksOf, be32_unbe32]

/-- Splitting the bytes of blocks gives the blocks back. -/
theorem blocksOf_bytesOf (bs : List Block) : blocksOf (bytesOf bs) = bs := by
  induction bs with
  | nil => rfl
  | cons b bs ih => rw [bytesOf_cons, blocksOf_toBytes, ih]

/-- A byte string of whole blocks is the bytes of its blocks. -/
theorem bytesOf_blocksOf {n : Nat} {bs : List Byte} (h : bs.length = 8 * n) :
    bytesOf (blocksOf bs) = bs := by
  induction n generalizing bs with
  | zero =>
    rw [List.length_eq_zero_iff.mp h]
    rfl
  | succ n ih =>
    match bs, h with
    | b0 :: b1 :: b2 :: b3 :: b4 :: b5 :: b6 :: b7 :: rest, h =>
      have hr : rest.length = 8 * n := by simp only [List.length_cons] at h; omega
      rw [blocksOf, bytesOf_cons, ih hr, Block.toBytes, unbe32_be32, unbe32_be32]
      rfl

theorem blocksOf_length {n : Nat} {bs : List Byte} (h : bs.length = 8 * n) :
    (blocksOf bs).length = n := by
  have h' := congrArg List.length (bytesOf_blocksOf h)
  rw [bytesOf_length, h] at h'
  omega

/-- XOR of a block with itself cancels (R10). -/
theorem Block.xor_cancel (a b : Block) : (a.xor b).xor b = a := by
  simp [Block.xor]

theorem Block.xor_self (a : Block) : a.xor a = Block.zero := by
  simp [Block.xor, Block.zero]

theorem Block.xor_comm (a b : Block) : a.xor b = b.xor a := by
  simp [Block.xor, BitVec.xor_comm]

theorem Block.xor_assoc (a b c : Block) : (a.xor b).xor c = a.xor (b.xor c) := by
  simp [Block.xor, BitVec.xor_assoc]

@[simp] theorem Block.xor_zero (a : Block) : a.xor Block.zero = a := by
  simp [Block.xor, Block.zero]

@[simp] theorem Block.zero_xor (a : Block) : Block.zero.xor a = a := by
  simp [Block.xor, Block.zero]

end Sys2Proof.Machine
end

