-- ==== Sys2Proof/Laws/Memory.lean ====
section
/-! SUPPORT. MSG RAM: every operation keeps the canonical form and the bounds; what a read returns after a
write (20_memory.md R41, R42; 10_state.md R31). -/

namespace Sys2Proof.Machine.Memory

theorem wf_nil : Memory.wf [] = true := rfl

theorem wf_cons {x : Nat} {b : Byte} {m : Memory} :
    Memory.wf ((x, b) :: m) = true ↔ (∀ c ∈ m, x < c.1) ∧ m.wf = true := by
  simp [Memory.wf]

/-- A written memory holds the written byte and bytes it held before, nothing else. -/
theorem mem_write {m : Memory} {a : Nat} {b : Byte} {c : Host.Cell} (h : c ∈ m.write a b) :
    c = (a, b) ∨ c ∈ m := by
  induction m with
  | nil => exact .inl (by simpa [Memory.write] using h)
  | cons p m ih =>
    obtain ⟨x, v⟩ := p
    simp only [Memory.write] at h
    split at h
    · simpa using h
    · split at h
      · rcases List.mem_cons.mp h with h | h
        · exact .inl h
        · exact .inr (List.mem_cons_of_mem _ h)
      · rcases List.mem_cons.mp h with h | h
        · exact .inr (h ▸ List.mem_cons_self)
        · exact (ih h).imp_right (List.mem_cons_of_mem _)

theorem write_wf {m : Memory} (a : Nat) (b : Byte) (h : m.wf = true) : (m.write a b).wf = true := by
  induction m with
  | nil => simp [Memory.write, Memory.wf]
  | cons p m ih =>
    obtain ⟨x, v⟩ := p
    obtain ⟨hx, hm⟩ := wf_cons.mp h
    simp only [Memory.write]
    split
    · rename_i hlt
      refine wf_cons.mpr ⟨fun c hc => ?_, h⟩
      rcases List.mem_cons.mp hc with rfl | hc
      · exact hlt
      · exact Nat.lt_trans hlt (hx c hc)
    · split
      · rename_i heq
        exact wf_cons.mpr ⟨heq ▸ hx, hm⟩
      · refine wf_cons.mpr ⟨fun c hc => ?_, ih hm⟩
        rcases mem_write hc with rfl | hc
        · show x < a
          omega
        · exact hx c hc

theorem writeBytes_wf {m : Memory} (a : Nat) (bs : List Byte) (h : m.wf = true) :
    (m.writeBytes a bs).wf = true := by
  induction bs generalizing m a with
  | nil => exact h
  | cons b bs ih => exact ih (a + 1) (write_wf a b h)

theorem write_within {m : Memory} {n a : Nat} (b : Byte) (h : m.within n = true) (ha : a < n) :
    (m.write a b).within n = true := by
  simp only [Memory.within, List.all_eq_true, decide_eq_true_eq] at h ⊢
  intro c hc
  rcases mem_write hc with rfl | hc
  · exact ha
  · exact h c hc

theorem writeBytes_within {m : Memory} {n a : Nat} {bs : List Byte} (h : m.within n = true)
    (ha : a + bs.length ≤ n) : (m.writeBytes a bs).within n = true := by
  induction bs generalizing m a with
  | nil => exact h
  | cons b bs ih =>
    simp only [List.length_cons] at ha
    exact ih (write_within b h (by omega)) (by omega)

theorem read_write_same (m : Memory) (a : Nat) (b : Byte) : (m.write a b).read a = some b := by
  induction m with
  | nil => simp [Memory.write, Memory.read]
  | cons p m ih =>
    obtain ⟨x, v⟩ := p
    simp only [Memory.write]
    split
    · simp [Memory.read]
    · split
      · simp [Memory.read]
      · rename_i h
        simp [Memory.read, ih, Ne.symm h]

theorem read_write_other (m : Memory) {a a' : Nat} (b : Byte) (h : a' ≠ a) :
    (m.write a b).read a' = m.read a' := by
  induction m with
  | nil => simp [Memory.write, Memory.read, Ne.symm h]
  | cons p m ih =>
    obtain ⟨x, v⟩ := p
    simp only [Memory.write]
    split
    · simp [Memory.read, Ne.symm h]
    · split
      · rename_i hx
        simp [Memory.read, Ne.symm h, ← hx]
      · simp [Memory.read, ih]

/-- A byte outside the written range reads as before. -/
theorem read_writeBytes_outside (m : Memory) {a a' : Nat} {bs : List Byte}
    (h : a' < a ∨ a + bs.length ≤ a') : (m.writeBytes a bs).read a' = m.read a' := by
  induction bs generalizing m a with
  | nil => rfl
  | cons b bs ih =>
    simp only [List.length_cons] at h
    rw [Memory.writeBytes, ih (m.write a b) (by omega), read_write_other m b (by omega)]

/-- A byte inside the written range reads as written. -/
theorem read_writeBytes_inside (m : Memory) (a : Nat) {bs : List Byte} {i : Nat} (h : i < bs.length) :
    (m.writeBytes a bs).read (a + i) = some bs[i] := by
  induction bs generalizing m a i with
  | nil => simp at h
  | cons b bs ih =>
    cases i with
    | zero =>
      rw [Memory.writeBytes, read_writeBytes_outside _ (by omega)]
      simpa using read_write_same m a b
    | succ i =>
      have := ih (m.write a b) (a + 1) (i := i) (by simpa using h)
      simpa [Memory.writeBytes, Nat.add_assoc, Nat.add_comm 1 i] using this

/-- MemRead answers p exactly when p has n bytes and each is the byte of memory at its place. -/
theorem readBytes_eq_some {m : Memory} {a n : Nat} {p : List Byte} :
    m.readBytes a n = some p ↔ p.length = n ∧ ∀ i, i < n → m.read (a + i) = p[i]? := by
  induction n generalizing a p with
  | zero =>
    cases p <;> simp [Memory.readBytes]
  | succ n ih =>
    constructor
    · intro h
      simp only [Memory.readBytes] at h
      split at h
      · cases h
      · rename_i b hb
        obtain ⟨q, hq, rfl⟩ := Option.map_eq_some_iff.mp h
        obtain ⟨hl, hr⟩ := ih.mp hq
        refine ⟨by simp [hl], fun i hi => ?_⟩
        cases i with
        | zero => simpa using hb
        | succ i => simpa [Nat.add_assoc, Nat.add_comm 1 i] using hr i (by omega)
    · rintro ⟨hl, hr⟩
      cases p with
      | nil => simp at hl
      | cons b q =>
        have hb : m.read a = some b := by simpa using hr 0 (by omega)
        have hq : m.readBytes (a + 1) n = some q := by
          refine ih.mpr ⟨by simpa using hl, fun i hi => ?_⟩
          simpa [Nat.add_assoc, Nat.add_comm 1 i] using hr (i + 1) (by omega)
        simp [Memory.readBytes, hb, hq]

/-- MemRead answers nothing exactly when it covers a byte never written. -/
theorem readBytes_eq_none {m : Memory} {a n : Nat} :
    m.readBytes a n = none ↔ ∃ i, i < n ∧ m.read (a + i) = none := by
  induction n generalizing a with
  | zero => simp [Memory.readBytes]
  | succ n ih =>
    simp only [Memory.readBytes]
    constructor
    · intro h
      split at h
      · rename_i hn
        exact ⟨0, by omega, hn⟩
      · obtain ⟨i, hi, hn⟩ := ih.mp (Option.map_eq_none_iff.mp h)
        exact ⟨i + 1, by omega, by simpa [Nat.add_assoc, Nat.add_comm 1 i] using hn⟩
    · rintro ⟨i, hi, hn⟩
      split
      · rfl
      · rename_i b hb
        cases i with
        | zero => simp [hb] at hn
        | succ i =>
          exact Option.map_eq_none_iff.mpr
            (ih.mpr ⟨i, by omega, by simpa [Nat.add_assoc, Nat.add_comm 1 i] using hn⟩)

/-- In a canonical memory, writing a byte it already holds changes nothing. -/
theorem write_read_eq {m : Memory} {a : Nat} {b : Byte} (hw : m.wf = true) (h : m.read a = some b) :
    m.write a b = m := by
  induction m with
  | nil => simp [Memory.read] at h
  | cons p m ih =>
    obtain ⟨x, v⟩ := p
    obtain ⟨hx, hm⟩ := wf_cons.mp hw
    simp only [Memory.read] at h
    simp only [Memory.write]
    split at h
    · rename_i he
      simp only [Option.some.injEq] at h
      simp [← he, h]
    · rename_i hne
      have hmem : ∀ {m' : Memory}, m'.read a = some b → ∃ c ∈ m', c.1 = a := by
        intro m'
        induction m' with
        | nil => simp [Memory.read]
        | cons q m' ih' =>
          obtain ⟨y, w⟩ := q
          simp only [Memory.read]
          split
          · rename_i hy
            exact fun _ => ⟨(y, w), List.mem_cons_self, hy⟩
          · exact fun hr => (ih' hr).imp fun c hc => ⟨List.mem_cons_of_mem _ hc.1, hc.2⟩
      obtain ⟨c, hc, hca⟩ := hmem h
      have := hx c hc
      rw [if_neg (by omega), if_neg (fun he => hne he.symm), ih hm h]

end Sys2Proof.Machine.Memory
end

