-- ==== Sys2Proof/Laws/Bus.lean ====
section
/-! SUPPORT. What a host access can do (20_memory.md R39, R42, R45, R47) and which accesses a bus transaction
decodes to (R38, R43, R44). -/

namespace Sys2Proof.Machine

theorem writeCmd_idle {s : State} (w : Word) (h : s.status.busy = false) : writeCmd w s = issue w s := by
  simp [writeCmd, h]

theorem writeCmd_busy {s : State} (w : Word) (h : s.status.busy = true) :
    writeCmd w s = { s with status := s.status.overrun } := by
  simp [writeCmd, h]

theorem messageInFlight_iff {s : State} :
    messageInFlight s = true ↔
      s.status.busy = true ∧ (s.latches.lop = 0x00000003 ∨ s.latches.lop = 0x00000004) := by
  simp [messageInFlight]

/-- A reserved offset names no register (R30, R45). -/
theorem ofOffset_reserved {o : Nat} (h : 0x038 ≤ o) : Reg.ofOffset o = none := by
  unfold Reg.ofOffset
  split <;> first | rfl | omega

theorem ofOffset_offset (r : Reg) : Reg.ofOffset r.offset = some r := by
  cases r <;> rfl

/-- A register write that is none to CMD changes operand registers only. -/
structure OperandEffect (s t : State) : Prop where
  params : t.params = s.params
  cmd : t.cmd = s.cmd
  status : t.status = s.status
  dout0 : t.dout0 = s.dout0
  dout1 : t.dout1 = s.dout1
  dlen : t.dlen = s.dlen
  msg : t.msg = s.msg
  latches : t.latches = s.latches
  draws : t.draws = s.draws
  latchDraws : t.latchDraws = s.latchDraws
  hosts : t.hosts = s.hosts
  turns : t.turns = s.turns

theorem writeReg_cases (r : Reg) (w : Word) (s : State) :
    (r = .cmd ∧ writeReg r w s = writeCmd w s) ∨ OperandEffect s (writeReg r w s) := by
  cases r <;> first | exact .inl ⟨rfl, rfl⟩ | exact .inr (by constructor <;> rfl)

theorem regWrite_cases (o : Nat) (w : Word) (s : State) :
    (o = 0 ∧ regWrite o w s = writeCmd w s) ∨ (o ≠ 0 ∧ OperandEffect s (regWrite o w s)) := by
  by_cases h0 : o = 0
  · subst h0
    exact .inl ⟨rfl, rfl⟩
  · refine .inr ⟨h0, ?_⟩
    unfold regWrite
    split
    · rename_i r hr
      rcases writeReg_cases r w s with ⟨rfl, -⟩ | h
      · unfold Reg.ofOffset at hr
        split at hr <;> simp_all
      · exact h
    · constructor <;> rfl

/-- Everything an admitted host access that has a step can do: nothing (a read), a register write, or a write of
some bytes to MSG RAM. -/
theorem hostAccess_cases {x : HostAccess} {s t : State} {r : Option Response}
    (h : hostAccess x s = .next (t, r)) :
    t = s ∨ (∃ o w, x = .regWrite o w ∧ t = regWrite o w s) ∨
    (messageInFlight s = false ∧
      ((∃ a b, x = .msgWriteB a b ∧ t = { s with msg := s.msg.writeBytes a [b] }) ∨
       ∃ a w, x = .msgWriteW a w ∧ t = { s with msg := s.msg.writeBytes a (unbe32 w) })) := by
  cases x with
  | regRead o => cases h; exact .inl rfl
  | regWrite o w => cases h; exact .inr (.inl ⟨o, w, rfl, rfl⟩)
  | msgReadB a =>
    simp only [hostAccess] at h
    split at h
    · cases h
    · split at h <;> cases h
      exact .inl rfl
  | msgWriteB a b =>
    simp only [hostAccess] at h
    split at h
    · cases h
    · cases h
      exact .inr (.inr ⟨Bool.eq_false_iff.mpr ‹_›, .inl ⟨a, b, rfl, rfl⟩⟩)
  | msgReadW a =>
    simp only [hostAccess] at h
    split at h
    · cases h
    · split at h <;> cases h
      exact .inl rfl
  | msgWriteW a w =>
    simp only [hostAccess] at h
    split at h
    · cases h
    · cases h
      exact .inr (.inr ⟨Bool.eq_false_iff.mpr ‹_›, .inr ⟨a, w, rfl, rfl⟩⟩)

/-- No access touches the parameters or the model's list of hosts or turns. -/
theorem hostAccess_agents {x : HostAccess} {s t : State} {r : Option Response}
    (h : hostAccess x s = .next (t, r)) : t.params = s.params ∧ t.hosts = s.hosts ∧ t.turns = s.turns := by
  rcases hostAccess_cases h with rfl | ⟨o, w, rfl, rfl⟩ | ⟨-, ⟨a, b, rfl, rfl⟩ | ⟨a, w, rfl, rfl⟩⟩
  · exact ⟨rfl, rfl, rfl⟩
  · rcases regWrite_cases o w s with ⟨-, h'⟩ | ⟨-, h'⟩
    · rw [h', writeCmd]
      split <;> exact ⟨rfl, rfl, rfl⟩
    · exact ⟨h'.params, h'.hosts, h'.turns⟩
  · exact ⟨rfl, rfl, rfl⟩
  · exact ⟨rfl, rfl, rfl⟩

/-- The accesses that lie inside the window of R38. -/
def HostAccess.inside (msgBytes : Nat) : HostAccess → Prop
  | .regRead o => o < MSG_OFFSET ∧ o % 4 = 0
  | .regWrite o _ => o < MSG_OFFSET ∧ o % 4 = 0
  | .msgReadB a => a < msgBytes
  | .msgWriteB a _ => a < msgBytes
  | .msgReadW a => a + 4 ≤ msgBytes
  | .msgWriteW a _ => a + 4 ≤ msgBytes

/-- A transaction that is not refused decodes to an access inside the window (R38, R39). -/
theorem decodeAccess_inside {base mb : Nat} {t : BusAccess} {x : HostAccess}
    (h : decodeAccess base mb t = .ok x) : x.inside mb := by
  unfold decodeAccess at h
  split at h
  · rename_i hw
    simp only [inWindow, decide_eq_true_eq] at hw
    cases t with
    | read width addr =>
      simp only [BusAccess.addr] at hw
      simp only [decodeRead] at h
      repeat' split at h
      all_goals cases h
      all_goals simp only [HostAccess.inside]
      all_goals omega
    | write width addr data =>
      simp only [BusAccess.addr] at hw
      simp only [decodeWrite] at h
      repeat' split at h
      all_goals cases h
      all_goals simp only [HostAccess.inside]
      all_goals omega
  · cases h

end Sys2Proof.Machine
end

