-- ==== Sys2Proof/Laws/Codec.lean ====
section
/-! SUPPORT. The Message Codec: lengths of the frame and of the chained blocks, and what unframing answers
(41_message_codec.md R79 to R92). -/

namespace Sys2Proof.Machine

theorem saltLen_le (n : Nat) : saltLen n ≤ 7 := by
  simp only [saltLen]
  omega

/-- L is a multiple of 8 (R83). -/
theorem frameLen_eq (n : Nat) : frameLen n = 8 * ((n + 15) / 8) := by
  simp only [frameLen, saltLen]
  omega

@[simp] theorem saltBytes_length (rnd : Draw) (s : Nat) : (saltBytes rnd s).length = s := by
  simp [saltBytes, Draw.bytes]

@[simp] theorem frame_length (p : List Byte) (rnd : Draw) : (frame p rnd).length = frameLen p.length := by
  simp only [frame, List.length_cons, List.length_append, saltBytes_length, List.length_replicate, frameLen]
  omega

theorem saltBytes_getElem? (rnd : Draw) {s i : Nat} (h : i < s) :
    (saltBytes rnd s)[i]? = some (rnd (i + 1)) := by
  have : i < s ∧ 1 + i < 1 + s := by omega
  simp [saltBytes, Draw.bytes, this, Nat.add_comm]

@[simp] theorem chainEnc_length (k : Key) (c : Chain) (ps : List Block) :
    (chainEnc k c ps).length = ps.length := by
  induction ps generalizing c with
  | nil => rfl
  | cons p ps ih => simp [chainEnc, ih]

@[simp] theorem chainDec_length (k : Key) (c : Chain) (bs : List Block) :
    (chainDec k c bs).length = bs.length := by
  induction bs generalizing c with
  | nil => rfl
  | cons b bs ih => simp [chainDec, ih]

@[simp] theorem codecEnc_length (k : Key) (p : List Byte) (rnd : Draw) :
    (codecEnc k p rnd).length = frameLen p.length := by
  rw [codecEnc, bytesOf_length, chainEnc_length,
    blocksOf_length (n := (p.length + 15) / 8) (by rw [frame_length, frameLen_eq]), frameLen_eq]

/-- The decoded frame is as long as the ciphertext (R92). -/
theorem decodedFrame_length {n : Nat} (k : Key) {c : List Byte} (h : c.length = 8 * n) :
    (decodedFrame k c).length = c.length := by
  rw [decodedFrame, bytesOf_length, chainDec_length, blocksOf_length h, h]

/-- What unframing answers, case by case (R89 to R91). -/
theorem unframe_cases (fb : List Byte) (l : Nat) :
    (l - 8 < headerSalt fb ∧ unframe fb l = .error .integrityCheckFailed) ∨
    (headerSalt fb ≤ l - 8 ∧ zeroCheckOk fb (headerSalt fb) = false ∧
      unframe fb l = .error .integrityCheckFailed) ∨
    (headerSalt fb ≤ l - 8 ∧ zeroCheckOk fb (headerSalt fb) = true ∧
      unframe fb l = .ok (fb.drop (8 + headerSalt fb), l - 8 - headerSalt fb)) := by
  unfold unframe
  split
  · exact .inl ⟨by assumption, rfl⟩
  · split
    · exact .inr (.inr ⟨by omega, by assumption, rfl⟩)
    · rename_i hz
      exact .inr (.inl ⟨by omega, Bool.not_eq_true _ ▸ hz, rfl⟩)

/-- Unframing fails with no other code than INTEGRITY_CHECK_FAILED. -/
theorem unframe_error {fb : List Byte} {l : Nat} {e : ErrorCode} (h : unframe fb l = .error e) :
    e = .integrityCheckFailed := by
  rcases unframe_cases fb l with ⟨-, h'⟩ | ⟨-, -, h'⟩ | ⟨-, -, h'⟩ <;> rw [h'] at h <;> cases h
  · rfl
  · rfl

/-- The seven bytes of the zero-check, one by one (R90). -/
theorem zeroCheckOk_iff {fb : List Byte} {s : Nat} :
    zeroCheckOk fb s = true ↔ ∀ i, i < 7 → fb[1 + s + i]? = some 0 := by
  have hz : ∀ i, i < 7 → (List.replicate 7 (0 : Byte))[i]? = some 0 := by decide
  simp only [zeroCheckOk, beq_iff_eq]
  constructor
  · intro h i hi
    have h' := congrArg (·[i]?) h
    simp only [List.getElem?_take, hi, if_true, List.getElem?_drop, hz i hi] at h'
    exact h'
  · intro h
    apply List.ext_getElem?
    intro i
    by_cases hi : i < 7
    · rw [hz i hi, List.getElem?_take, if_pos hi, List.getElem?_drop, h i hi]
    · rw [List.getElem?_take, if_neg hi, List.getElem?_eq_none (by simpa using hi)]

end Sys2Proof.Machine
end

