-- ==== Sys2Proof/Laws/Exec.lean ====
section
/-! SUPPORT. What each command answers, case by case, and what no command can change (30_encoding.md R58 to R60).
The range and memory checks are restated as facts about integers and bytes. -/

namespace Sys2Proof.Machine

theorem inRange_iff {mb a m : Nat} : inRange mb a m = true ↔ a + m ≤ mb := by simp [inRange]

theorem overlap_iff {a m b k : Nat} :
    overlap a m b k = true ↔ 0 < m ∧ 0 < k ∧ a < b + k ∧ b < a + m := by simp [overlap]

theorem overlap_false_iff {a m b k : Nat} :
    overlap a m b k = false ↔ ¬ (0 < m ∧ 0 < k ∧ a < b + k ∧ b < a + m) := by
  rw [← overlap_iff, Bool.not_eq_true]

theorem lengthInvalid_iff {l : Nat} : lengthInvalid l = true ↔ l = 0 ∨ l % 8 ≠ 0 := by
  simp [lengthInvalid]

theorem mencRangesOk_iff {mb : Nat} {l : Latches} :
    mencRangesOk mb l = true ↔ l.srcAt + l.len ≤ mb ∧ l.dstAt + frameLen l.len ≤ mb ∧
      ¬ (0 < l.len ∧ 0 < frameLen l.len ∧ l.srcAt < l.dstAt + frameLen l.len ∧
        l.dstAt < l.srcAt + l.len) := by
  simp only [mencRangesOk, Bool.and_eq_true, Bool.not_eq_true', inRange_iff, overlap_false_iff]

theorem mdecDestOk_iff {mb : Nat} {l : Latches} {n : Nat} :
    mdecDestOk mb l n = true ↔ l.dstAt + n ≤ mb ∧
      ¬ (0 < l.len ∧ 0 < n ∧ l.srcAt < l.dstAt + n ∧ l.dstAt < l.srcAt + l.len) := by
  simp only [mdecDestOk, Bool.and_eq_true, Bool.not_eq_true', inRange_iff, overlap_false_iff]

/-! ### The arms of exec -/

theorem exec_encb (s : State) :
    exec .encb s = .next (complete none (writeDout (teaEnc s.latches.lk s.latches.block) s)) := rfl

theorem exec_decb (s : State) :
    exec .decb s = .next (complete none (writeDout (teaDec s.latches.lk s.latches.block) s)) := rfl

/-- MENC's result on success (R94). -/
def mencResult (rnd : Draw) (p : List Byte) (s : State) : State :=
  complete none { storeMessage (codecEnc s.latches.lk p rnd) (frameLen s.latches.len) s with
    draws := s.draws + 1 }

/-- Everything MENC can do. -/
theorem mencWith_cases (rnd : Draw) (s : State) :
    (mencRangesOk s.params.msgBytes s.latches = false ∧ mencWith rnd s = .next (raise .rangeError s)) ∨
    (mencRangesOk s.params.msgBytes s.latches = true ∧ s.msg.readBytes s.latches.srcAt s.latches.len = none ∧
      mencWith rnd s = .fault .engineReadUnwritten) ∨
    (mencRangesOk s.params.msgBytes s.latches = true ∧ ∃ p,
      s.msg.readBytes s.latches.srcAt s.latches.len = some p ∧
      mencWith rnd s = .next (mencResult rnd p s)) := by
  unfold mencWith
  split
  · rename_i h
    split
    · exact .inr (.inl ⟨h, by assumption, rfl⟩)
    · exact .inr (.inr ⟨h, _, by assumption, rfl⟩)
  · rename_i h
    exact .inl ⟨Bool.eq_false_iff.mpr h, rfl⟩

/-- Everything MDEC can do after MemRead. -/
theorem mdecStore_cases (c : List Byte) (s : State) :
    (codecDec s.latches.lk c = .error .integrityCheckFailed ∧
      mdecStore c s = raise .integrityCheckFailed s) ∨
    (∃ p n, codecDec s.latches.lk c = .ok (p, n) ∧ mdecDestOk s.params.msgBytes s.latches n = false ∧
      mdecStore c s = raise .rangeError s) ∨
    (∃ p n, codecDec s.latches.lk c = .ok (p, n) ∧ mdecDestOk s.params.msgBytes s.latches n = true ∧
      mdecStore c s = complete none (storeMessage p n s)) := by
  unfold mdecStore
  split
  · rename_i e he
    obtain rfl := unframe_error he
    exact .inl ⟨he, rfl⟩
  · rename_i p n h
    split
    · exact .inr (.inr ⟨p, n, h, by assumption, rfl⟩)
    · rename_i hd
      exact .inr (.inl ⟨p, n, h, Bool.eq_false_iff.mpr hd, rfl⟩)

/-- Everything MDEC can do. -/
theorem execMdec_cases (s : State) :
    (lengthInvalid s.latches.len = true ∧ execMdec s = .next (raise .invalidLength s)) ∨
    (lengthInvalid s.latches.len = false ∧ inRange s.params.msgBytes s.latches.srcAt s.latches.len = false ∧
      execMdec s = .next (raise .rangeError s)) ∨
    (lengthInvalid s.latches.len = false ∧ inRange s.params.msgBytes s.latches.srcAt s.latches.len = true ∧
      s.msg.readBytes s.latches.srcAt s.latches.len = none ∧
      execMdec s = .fault .engineReadUnwritten) ∨
    (lengthInvalid s.latches.len = false ∧ inRange s.params.msgBytes s.latches.srcAt s.latches.len = true ∧ ∃ c,
      s.msg.readBytes s.latches.srcAt s.latches.len = some c ∧
      execMdec s = .next (mdecStore c s)) := by
  unfold execMdec
  split
  · exact .inl ⟨by assumption, rfl⟩
  · rename_i hl
    have hl := Bool.eq_false_iff.mpr hl
    split
    · rename_i hr
      split
      · exact .inr (.inr (.inl ⟨hl, hr, by assumption, rfl⟩))
      · exact .inr (.inr (.inr ⟨hl, hr, _, by assumption, rfl⟩))
    · rename_i hr
      exact .inr (.inl ⟨hl, Bool.eq_false_iff.mpr hr, rfl⟩)

/-! ### What a command can do at all -/

/-- All that a completed command can have changed: it completed with success or with one error, and MSG RAM took
at most one run of bytes at LDST that fits (R59, R60, R102). -/
structure CommandEffect (s t : State) : Prop where
  params : t.params = s.params
  cmd : t.cmd = s.cmd
  key : t.key = s.key
  din0 : t.din0 = s.din0
  din1 : t.din1 = s.din1
  src : t.src = s.src
  slen : t.slen = s.slen
  dst : t.dst = s.dst
  hosts : t.hosts = s.hosts
  turns : t.turns = s.turns
  latches : t.latches = Latches.unspecified s.latchDraws
  latchDraws : t.latchDraws = s.latchDraws + 1
  status : ∃ o, t.status = s.status.completed o ∧ o ≠ some .invalidKeyLength
  msg : t.msg = s.msg ∨
    ∃ bs : List Byte, s.latches.dstAt + bs.length ≤ s.params.msgBytes ∧ t.msg = s.msg.writeBytes s.latches.dstAt bs

/-- Raising an error is a command's effect. -/
theorem raise_effect (e : ErrorCode) (s : State) (h : e ≠ .invalidKeyLength) :
    CommandEffect s (raise e s) := by
  constructor <;> simp
  exact ⟨some e, rfl, by simpa using h⟩

theorem codecDec_length {k : Key} {c p : List Byte} {n : Nat} (h8 : c.length % 8 = 0)
    (h : codecDec k c = .ok (p, n)) : p.length = n := by
  have hl : (decodedFrame k c).length = c.length :=
    decodedFrame_length (n := c.length / 8) k (by omega)
  rcases unframe_cases (decodedFrame k c) c.length with ⟨-, h'⟩ | ⟨-, -, h'⟩ | ⟨h1, -, h'⟩ <;>
    rw [codecDec, h'] at h <;> cases h
  rw [List.length_drop, hl]
  omega

/-- The inversion lemma of exec: whatever command runs, a next state is a `CommandEffect`. -/
theorem exec_effect {i : Instr} {s t : State} (h : exec i s = .next t) :
    CommandEffect s t := by
  cases i with
  | encb =>
    cases h
    constructor <;> simp
    exact ⟨none, rfl, by simp⟩
  | decb =>
    cases h
    constructor <;> simp
    exact ⟨none, rfl, by simp⟩
  | menc =>
    simp only [exec, execMenc] at h
    rcases mencWith_cases (Config.rngByte s.draws) s with
      ⟨-, h'⟩ | ⟨-, -, h'⟩ | ⟨hr, p, hp, h'⟩ <;> rw [h'] at h <;> cases h
    · exact raise_effect _ _ (by decide)
    · have hl := (Memory.readBytes_eq_some.mp hp).1
      have hd := (mencRangesOk_iff.mp hr).2.1
      constructor <;> simp [mencResult]
      · exact ⟨none, rfl, by simp⟩
      · exact .inr ⟨_, by simpa [hl] using hd, rfl⟩
  | mdec =>
    simp only [exec] at h
    rcases execMdec_cases s with
      ⟨-, h'⟩ | ⟨-, -, h'⟩ | ⟨-, -, -, h'⟩ | ⟨hl, -, c, hc, h'⟩ <;> rw [h'] at h <;> cases h
    · exact raise_effect _ _ (by decide)
    · exact raise_effect _ _ (by decide)
    · rcases mdecStore_cases c s with ⟨-, h'⟩ | ⟨p, n, -, -, h'⟩ | ⟨p, n, hd, ho, h'⟩ <;>
        rw [h']
      · exact raise_effect _ _ (by decide)
      · exact raise_effect _ _ (by decide)
      · have hlen : c.length % 8 = 0 := by
          have hi : ¬ (s.latches.len = 0 ∨ s.latches.len % 8 ≠ 0) := by
            rw [← lengthInvalid_iff, hl]
            decide
          rw [(Memory.readBytes_eq_some.mp hc).1]
          omega
        have hn := codecDec_length hlen hd
        have hd := (mdecDestOk_iff.mp ho).1
        constructor <;> simp
        · exact ⟨none, rfl, by simp⟩
        · exact .inr ⟨p, by omega, rfl⟩

/-- No command refuses (R55, R58). -/
theorem exec_ne_refused (i : Instr) (s : State) (r : Refusal) : exec i s ≠ .refused r := by
  cases i with
  | encb => simp [exec_encb]
  | decb => simp [exec_decb]
  | menc =>
    simp only [exec, execMenc]
    rcases mencWith_cases (Config.rngByte s.draws) s with
      ⟨-, h'⟩ | ⟨-, -, h'⟩ | ⟨-, p, -, h'⟩ <;> simp [h']
  | mdec =>
    simp only [exec]
    rcases execMdec_cases s with
      ⟨-, h'⟩ | ⟨-, -, h'⟩ | ⟨-, -, -, h'⟩ | ⟨-, -, c, -, h'⟩ <;> simp [h']

end Sys2Proof.Machine
end

