-- ==== Sys2Proof/Laws/PerInstr.lean ====
section
/-! SUPPORT. The statement made per instruction: what each command's word is, as syntax (30_encoding.md R53 to
R55). -/

namespace Sys2Proof.Laws

/-- A command is well formed, and its word has the command's opcode in bits 3:0 and zero in bits 31:4, which is a
legal command word. -/
def CommandWord.Statement (i : Instr) : Prop :=
  i.wf = true ∧ commandFields (encode i) = { op := i.op, rsvd := 0 } ∧
    (commandFields (encode i)).wf = true ∧ decode (encode i) = .ok i

theorem CommandWord.encb : CommandWord.Statement .encb := by unfold CommandWord.Statement; decide

theorem CommandWord.decb : CommandWord.Statement .decb := by unfold CommandWord.Statement; decide

theorem CommandWord.menc : CommandWord.Statement .menc := by unfold CommandWord.Statement; decide

theorem CommandWord.mdec : CommandWord.Statement .mdec := by unfold CommandWord.Statement; decide

end Sys2Proof.Laws
end

