-- ==== Sys2Proof/Laws/Step.lean ====
section
/-! SUPPORT. The inversion lemma of the step function: whoever moved, what a next state can be (20_memory.md
R48). Every invariant of the machine is derived from it. -/

namespace Sys2Proof.Machine

/-- What the engine's perform step can be: a command, or BAD_COMMAND (R58). -/
theorem perform_cases {s t : State} (h : perform s = .next t) :
    (∃ i, decode s.latches.lop = .ok i ∧ exec i s = .next t) ∨
    (∃ e, decode s.latches.lop = .error e ∧ t = raise .badCommand s) := by
  unfold perform at h
  split at h
  · exact .inl ⟨_, ‹_›, h⟩
  · cases h
    exact .inr ⟨_, ‹_›, rfl⟩

/-- Whatever word is in LOP, a perform step is a command's effect. -/
theorem perform_effect {s t : State} (h : perform s = .next t) : CommandEffect s t := by
  rcases perform_cases h with ⟨i, -, h⟩ | ⟨e, -, rfl⟩
  · exact exec_effect h
  · exact raise_effect _ _ (by decide)

/-- What a host's turn can be: it passes, or one admitted access inside the window and the host moved on. -/
theorem hostTurn_cases {k : Nat} {s t : State} (h : hostTurn k s = .next t) :
    t = s ∨ ∃ x u r hs, x.inside s.params.msgBytes ∧ hostAccess x s = .next (u, r) ∧ t = { u with hosts := hs } := by
  unfold hostTurn at h
  split at h
  · cases h; exact .inl rfl
  · split at h
    · cases h; exact .inl rfl
    · unfold runLine busAccess at h
      split at h
      · rename_i l _ u r hb
        cases h
        split at hb
        · rename_i x hx
          exact .inr ⟨x, u, r, _, decodeAccess_inside hx, hb, rfl⟩
        · cases hb
      · cases h
      · cases h

/-- Everything a step can be. -/
theorem step_cases {s t : State} (h : step s = .next t) :
    (nextTurn s = none ∧ t = s) ∨
    (nextTurn s = some .reset ∧ t = resetEngine (takeTurn s)) ∨
    (nextTurn s = some .engine ∧ s.status.busy = false ∧ t = takeTurn s) ∨
    (nextTurn s = some .engine ∧ s.status.busy = true ∧ perform (takeTurn s) = .next t) ∨
    (∃ k, nextTurn s = some (.host k) ∧ (t = takeTurn s ∨
      ∃ x u r hs, x.inside s.params.msgBytes ∧ hostAccess x (takeTurn s) = .next (u, r) ∧
        t = { u with hosts := hs })) := by
  unfold step systemStep at h
  split at h
  · rename_i tn htn
    cases tn with
    | engine =>
      cases hb : s.status.busy with
      | true => exact .inr (.inr (.inr (.inl ⟨htn, rfl, by simpa [runTurn, engineTurn, hb] using h⟩)))
      | false =>
        simp only [runTurn, engineTurn, takeTurn_status, hb] at h
        cases h
        exact .inr (.inr (.inl ⟨htn, rfl, rfl⟩))
    | host k => exact .inr (.inr (.inr (.inr ⟨k, htn, hostTurn_cases h⟩)))
    | reset =>
      cases h
      exact .inr (.inl ⟨htn, rfl⟩)
  · cases h
    exact .inl ⟨by assumption, rfl⟩

/-- One more step of a run, in terms of `step`. -/
theorem core_run_succ (n : Nat) (s : State) :
    core.run (n + 1) s = match step s with
      | .next t => core.run n t
      | .fault f => .fault f
      | .refused r => .refused r := by
  cases h : step s <;> simp [Host.Core.run, core, h]

end Sys2Proof.Machine
end

