-- ==== Sys2Proof/Tests/Slice0.lean ====
section
/-! SUPPORT. Tests and witnesses. A `test_` theorem checks the model against a value of spec/95_test_vectors.md,
named in its docstring; a `witness_` theorem shows values that meet all the hypotheses of the obligation it is
named after, at the boundaries of each clause. -/

open Sys2Proof Sys2Proof.Machine Sys2Proof.Claims

namespace Sys2Proof.Tests

/-! ### A small machine -/

/-- A machine with MSG_BYTES = 256 (95_test_vectors.md) at page 4 of the bus, idle, with no host. -/
def rig : State :=
  { params := { base := 0x4000, msgBytes := 256 }
    cmd := 0
    status := { busy := false, done := false, err := false, ovr := false, ecode := 0 }
    key := { k0 := 0, k1 := 0, k2 := 0, k3 := 0 }
    din0 := 0, din1 := 0, dout0 := 0, dout1 := 0, src := 0, slen := 0, dst := 0, dlen := 0
    msg := []
    latches := { lop := 0, lk := { k0 := 0, k1 := 0, k2 := 0, k3 := 0 }, lv0 := 0, lv1 := 0, lsrc := 0
                 lslen := 0, ldst := 0 }
    draws := 0, latchDraws := 0, hosts := [], turns := [] }

/-- K1 of 95_test_vectors.md. -/
def keyK1 : Key := { k0 := 0x00112233, k1 := 0x44556677, k2 := 0x8899AABB, k3 := 0xCCDDEEFF }

/-- The input block of row B2. -/
def blockB2 : Block := { v0 := 0x01234567, v1 := 0x89ABCDEF }

/-- The ciphertext of row V4. -/
def cipherV4 : List Byte :=
  [0x2A, 0x02, 0x85, 0xFF, 0xA2, 0xB8, 0x1C, 0x43, 0x05, 0x2E, 0xF5, 0x09, 0xAA, 0xB5, 0xF1, 0x84]

/-- The answer of the random source in row V4. -/
def drawV4 : Draw := fun i => [0x5A, 0x01, 0x02, 0x03, 0x04, 0x05].getD i 0

/-- `rig` under K1 with the operands of a message command and bytes `p` written at `a`, and `w` issued. -/
def sent (w : Word) (k : Key) (src n dst : Word) (a : Nat) (p : List Byte) : State :=
  issue w { rig with key := k, src := src, slen := n, dst := dst, msg := Memory.writeBytes [] a p }

/-- `rig` under K1 with the block of row B2, and `w` issued. -/
def sentBlock (w : Word) : State :=
  issue w { rig with key := keyK1, din0 := blockB2.v0, din1 := blockB2.v1 }

/-- The state of an outcome that has one. -/
def next? {α : Type} : Host.Outcome α Fault Refusal → Option α
  | .next t => some t
  | .fault _ => none
  | .refused _ => none

/-- `rig` with one host that runs `program`, and its turn next. -/
def hosted (program : List HostLine) (s : State) : State :=
  { s with hosts := [{ program := program, line := 0, responses := [] }], turns := [.host 0] }

/-! ### Well-formedness refuses ill-formed terms -/

theorem test_wf_refuses_reserved_bits : ({ op := 1, rsvd := 1 } : CommandFields).wf = false := by decide

theorem test_wf_refuses_opcode_0 : ({ op := 0, rsvd := 0 } : CommandFields).wf = false := by decide

theorem test_wf_refuses_opcode_5 : ({ op := 5, rsvd := 0 } : CommandFields).wf = false := by decide

theorem test_wf_refuses_wide_data : (BusAccess.write 8 0x5000 0x100).wf = false := by decide

theorem test_wf_refuses_misaligned_line : (HostLine.bus (.read 32 0x4002)).wf 0x4000 256 1 = false := by decide

theorem test_wf_refuses_halfword_line : (HostLine.bus (.read 16 0x5000)).wf 0x4000 256 1 = false := by decide

theorem test_wf_refuses_bit_32 : (HostLine.bbs 0x004 32 0).wf 0x4000 256 1 = false := by decide

theorem test_wf_refuses_label_outside : (HostLine.bbs 0x004 0 2).wf 0x4000 256 1 = false := by decide

theorem test_wf_params_refuses_small_ram : ({ base := 0, msgBytes := 12 } : Params).legal = false := by decide

theorem test_wf_params_refuses_unaligned_base : ({ base := 0x800, msgBytes := 256 } : Params).legal = false := by
  decide

/-! ### Decoding, words written from 30_encoding.md R53 and R54: RSVD, then OP -/

theorem test_decode_encb : decode (0b0000000000000000000000000000#28 ++ 0b0001#4) = .ok .encb := by decide

theorem test_decode_decb : decode (0b0000000000000000000000000000#28 ++ 0b0010#4) = .ok .decb := by decide

theorem test_decode_menc : decode (0b0000000000000000000000000000#28 ++ 0b0011#4) = .ok .menc := by decide

theorem test_decode_mdec : decode (0b0000000000000000000000000000#28 ++ 0b0100#4) = .ok .mdec := by decide

theorem test_decode_opcode_above : decode 0x0000000F = .error .illegalOpcode := by decide

theorem test_decode_reserved_bit : decode 0x80000001 = .error .reservedBits := by decide

theorem test_decodeTableWord : decodeTableWord 32 0x00000003 = some .menc := by decide

theorem test_withFetchWord_runs_next :
    (next? (step (State.reset.withFetchWord 32 0x00000001))).map (fun t => t.status.toWord) = some 0x00000002 := by
  decide +kernel

/-! ### Commands -/

/-- Section 2.6, row X3. -/
theorem test_encb_X3 :
    (next? (exec .encb (sentBlock 1))).map (fun t => (t.dout0, t.dout1, t.status.toWord)) =
      some (0x126C6B92, 0xC0653A3E, 0x00000002) := by decide +kernel

/-- Section 2.6, row X5. -/
theorem test_decb_X5 :
    (next? (exec .decb (sentBlock 2))).map (fun t => (t.dout0, t.dout1, t.status.toWord)) =
      some (0xBF467633, 0x9D07A595, 0x00000002) := by decide +kernel

/-- Sections 3.2 and 3.6, row V4 at the last destination that fits, as in row R3. -/
theorem test_menc_V4 :
    (next? (mencWith drawV4 (sent 3 keyK1 0 3 240 0 [0x41, 0x42, 0x43]))).map
      (fun t => (t.msg.readBytes 240 16, t.dlen, t.status.toWord)) = some (some cipherV4, 16, 0x00000002) := by
  decide +kernel

/-- Section 3.6, row R9: no wraparound in the range check. -/
theorem test_menc_R9 :
    (next? (exec .menc (sent 3 keyK1 0 0xFFFFFFFF 0 0 []))).map (fun t => (t.dlen, t.status.toWord)) =
      some (0, 0x00000056) := by decide +kernel

/-- Sections 3.3 and 3.6, row D2 at the last destination that fits, as in row R14. -/
theorem test_mdec_D2 :
    (next? (exec .mdec (sent 4 keyK1 16 16 253 16 cipherV4))).map
      (fun t => (t.msg.readBytes 253 3, t.dlen, t.status.toWord)) =
      some (some [0x41, 0x42, 0x43], 3, 0x00000002) := by decide +kernel

/-- Sections 3.4 and 3.6, rows E6 and R17: the wrong key, and a destination out of range besides. -/
theorem test_mdec_E6_R17 :
    (next? (exec .mdec (sent 4 rig.key 16 16 255 16 cipherV4))).map (fun t => (t.dlen, t.status.toWord)) =
      some (0, 0x00000036) := by decide +kernel

/-! ### Lifecycle and bus (section 4) -/

/-- Row T6, word 0x00000013. -/
theorem test_illegal_word_T6 :
    (next? (step (rig.withFetchWord 32 0x13))).map (fun t => (t.status.toWord, t.cmd)) =
      some (0x00000046, 0x13) := by decide +kernel

/-- Row T8: a CMD write while an MDEC with SLEN = 0 is in flight. -/
theorem test_overrun_T8 :
    ((next? (hostAccess (.regWrite 0 1) (sent 4 keyK1 0 0 0 0 []))).bind (fun p => next? (perform p.1))).map
      (fun t => (t.status.toWord, t.cmd)) = some (0x0000002E, 4) := by decide +kernel

/-- Row T10. -/
theorem test_word_bytes_T10 :
    (next? (hostAccess (.msgWriteW 4 0x11223344) rig)).map (fun p => (p.1.msg.read 4, p.1.msg.read 7)) =
      some (some 0x11, some 0x44) := by decide +kernel

/-- Row T13: an offset that is no multiple of 4, and a 16-bit access to MSG RAM. -/
theorem test_refused_T13 :
    decodeAccess 0x4000 256 (.read 32 0x4002) = .error .misaligned ∧
      decodeAccess 0x4000 256 (.read 16 0x5000) = .error .widthNotAdmitted ∧
      decodeAccess 0x4000 256 (.read 32 0x5001) = .error .misaligned := by decide

/-- 30_encoding.md R66: `encb` is W32 0x000 = 0x00000001, and `wrb 5, 0x41` is W8 0x1005 = 0x41. -/
theorem test_line_encoding_R66 :
    HostLine.encb 0x4000 = .bus (.write 32 0x4000 1) ∧
      HostLine.wrb 0x4000 5 0x41 = .bus (.write 8 0x5005 0x41) := by decide

/-- 30_encoding.md R65: the expansion of `blk.enc`, its `poll` branching to itself. -/
theorem test_blk_enc_expansion_R65 :
    HostLine.blkEnc 0 2 blockB2 =
      [.bus (.write 32 0x018 0x01234567), .bus (.write 32 0x01C 0x89ABCDEF), .bus (.write 32 0x000 1),
       .bbs 0x004 0 5] := by decide

/-! ### Witnesses: Block Engine -/

/-- Cycle by cycle, the encryption of row B2. -/
def encRun (i : Nat) : TeaWork := encCycles keyK1 i { sum := 0, v0 := blockB2.v0, v1 := blockB2.v1 }

/-- Cycle by cycle, the decryption of row B2's input. -/
def decRun (i : Nat) : TeaWork := decCycles keyK1 i { sum := 0xC6EF3720, v0 := blockB2.v0, v1 := blockB2.v1 }

theorem witness_TeaEncFollowsItsCycles : ∃ (k : Key) (sum v0 v1 : Nat → Word), sum 0 = 0 ∧
    ∀ i, i < 32 → sum (i + 1) = sum i + 0x9E3779B9 ∧
      v0 (i + 1) = v0 i + F (v1 i) k.k0 k.k1 (sum (i + 1)) ∧
      v1 (i + 1) = v1 i + F (v0 (i + 1)) k.k2 k.k3 (sum (i + 1)) :=
  ⟨keyK1, fun i => (encRun i).sum, fun i => (encRun i).v0, fun i => (encRun i).v1, by decide +kernel⟩

theorem witness_TeaDecFollowsItsCycles : ∃ (k : Key) (sum v0 v1 : Nat → Word), sum 0 = 0xC6EF3720 ∧
    ∀ i, i < 32 → v1 (i + 1) = v1 i - F (v0 i) k.k2 k.k3 (sum i) ∧
      v0 (i + 1) = v0 i - F (v1 (i + 1)) k.k0 k.k1 (sum i) ∧ sum (i + 1) = sum i - 0x9E3779B9 :=
  ⟨keyK1, fun i => (decRun i).sum, fun i => (decRun i).v0, fun i => (decRun i).v1, by decide +kernel⟩

theorem witness_KeyScheduleIsMultiplesOfDelta_enc : ∃ (k : Key) (v0 v1 : Nat → Word),
    ∀ i, i < 33 → 1 ≤ i →
      v0 i = v0 (i - 1) + F (v1 (i - 1)) k.k0 k.k1 (BitVec.ofNat 32 (i * 0x9E3779B9)) ∧
      v1 i = v1 (i - 1) + F (v0 i) k.k2 k.k3 (BitVec.ofNat 32 (i * 0x9E3779B9)) :=
  ⟨keyK1, fun i => (encRun i).v0, fun i => (encRun i).v1, by decide +kernel⟩

theorem witness_KeyScheduleIsMultiplesOfDelta_dec : ∃ (k : Key) (v0 v1 : Nat → Word),
    ∀ j, j < 33 → 1 ≤ j →
      v1 j = v1 (j - 1) - F (v0 (j - 1)) k.k2 k.k3 (BitVec.ofNat 32 ((33 - j) * 0x9E3779B9)) ∧
      v0 j = v0 (j - 1) - F (v1 j) k.k0 k.k1 (BitVec.ofNat 32 ((33 - j) * 0x9E3779B9)) :=
  ⟨keyK1, fun i => (decRun i).v0, fun i => (decRun i).v1, by decide +kernel⟩

/-! ### Witnesses: block commands -/

theorem witness_EncbAndDecbUndoEachOther_enc_dec : ∃ s t u v : State, u.latches.lk = s.latches.lk ∧
    u.latches.lv0 = t.dout0 ∧ u.latches.lv1 = t.dout1 ∧ exec .encb s = .next t ∧ exec .decb u = .next v :=
  ⟨sentBlock 1, complete none (writeDout { v0 := 0x126C6B92, v1 := 0xC0653A3E } (sentBlock 1)),
    issue 2 { rig with key := keyK1, din0 := 0x126C6B92, din1 := 0xC0653A3E }, _, rfl, rfl, rfl,
    congrArg (fun b => Host.Outcome.next (complete none (writeDout b (sentBlock 1)))) (by decide +kernel), rfl⟩

theorem witness_EncbAndDecbUndoEachOther_dec_enc : ∃ s t u v : State, u.latches.lk = s.latches.lk ∧
    u.latches.lv0 = t.dout0 ∧ u.latches.lv1 = t.dout1 ∧ exec .decb s = .next t ∧ exec .encb u = .next v :=
  ⟨sentBlock 2, complete none (writeDout { v0 := 0xBF467633, v1 := 0x9D07A595 } (sentBlock 2)),
    issue 1 { rig with key := keyK1, din0 := 0xBF467633, din1 := 0x9D07A595 }, _, rfl, rfl, rfl,
    congrArg (fun b => Host.Outcome.next (complete none (writeDout b (sentBlock 2)))) (by decide +kernel), rfl⟩

/-! ### Witnesses: Message Codec -/

theorem witness_FrameLengthIsMinimal : (16 % 8 = 0 ∧ 1 + 8 ≤ 16) ∧ ([0x41] : List Byte).length = 1 := by decide

theorem witness_FrameLayout : 7 = (8 - ([0x41] : List Byte).length % 8) % 8 ∧ (1 ≤ 1 ∧ 1 ≤ 7) ∧
    (1 ≤ 7 ∧ 7 ≤ 7) ∧ (0 < 7 ∧ 6 < 7) ∧ 0 < ([0x41] : List Byte).length := by decide

theorem witness_ChainEncryptRecurrence : 0 < (blocksOf (frame [0x41, 0x42, 0x43] drawV4)).length ∧
    1 < (blocksOf (frame [0x41, 0x42, 0x43] drawV4)).length := by decide +kernel

theorem witness_ChainDecryptRecurrence : cipherV4.length % 8 = 0 ∧ 0 < (blocksOf cipherV4).length ∧
    1 < (blocksOf cipherV4).length := by decide +kernel

theorem witness_DrawLowBitsAreDiscarded : ∃ (p : List Byte) (r r' : Draw), r ≠ r' ∧
    (r 0).extractLsb' 3 5 = (r' 0).extractLsb' 3 5 ∧
    ∀ i, 1 ≤ i → i ≤ (8 - p.length % 8) % 8 → r i = r' i :=
  ⟨[0x41], fun i => if i = 0 then 0x58 else 0x11, fun i => if i = 0 then 0x5F else 0x11,
    fun h => absurd (congrFun h 0) (by decide), by decide,
    fun i h _ => by simp [show i ≠ 0 by omega]⟩

theorem witness_DifferentDraws_header : ∃ r r' : Draw, (r 0).extractLsb' 3 5 ≠ (r' 0).extractLsb' 3 5 :=
  ⟨fun _ => 0xA5, fun _ => 0xFF, by decide⟩

theorem witness_DifferentDraws_last_salt_byte : ∃ (p : List Byte) (r r' : Draw) (i : Nat), 1 ≤ i ∧
    i ≤ (8 - p.length % 8) % 8 ∧ r i ≠ r' i :=
  ⟨[0x41], fun _ => 0, fun i => if i = 7 then 1 else 0, 7, by decide⟩

theorem witness_TamperedBlockChangesTheFrame : ∃ (pre post : List Block) (c c' : Block), c ≠ c' ∧
    0 < pre.length ∧ pre.length + 2 < pre.length + 1 + post.length :=
  ⟨[blockB2], [blockB2, blockB2], blockB2, Block.zero, by decide⟩

theorem witness_AcceptedFrames_empty :
    unframe [0, 0, 0, 0, 0, 0, 0, 0] 8 = .ok ([], 0) ∧ ([0, 0, 0, 0, 0, 0, 0, 0] : List Byte).length = 8 := by
  decide

theorem witness_AcceptedFrames_largest_salt :
    unframe [0xFF, 0x11, 0x11, 0x11, 0x11, 0x11, 0x11, 0x11, 0, 0, 0, 0, 0, 0, 0, 0x41] 16 = .ok ([0x41], 1) := by
  decide

/-! ### Witnesses: message commands -/

/-- Row R3's operands: the last destination that fits. -/
theorem witness_MencStoresTheCiphertext : ∃ (s : State) (p : List Byte), s.params.legal = true ∧ mencRanges s ∧
    holdsBytes s s.latches.lsrc.toNat s.latches.lslen.toNat p :=
  ⟨sent 3 keyK1 0 3 240 0 [0x41, 0x42, 0x43], [0x41, 0x42, 0x43], by
    unfold mencRanges overlapping holdsBytes; decide +kernel⟩

/-- Row R6's operands: an empty plaintext. -/
theorem witness_MencStoresTheCiphertext_empty : ∃ (s : State) (p : List Byte), s.params.legal = true ∧
    mencRanges s ∧ holdsBytes s s.latches.lsrc.toNat s.latches.lslen.toNat p :=
  ⟨sent 3 keyK1 0 0 0 0 [], [], by unfold mencRanges overlapping holdsBytes; decide +kernel⟩

/-- Rows R8 (source), R10 (destination) and R4 (overlap). -/
theorem witness_MencRangeError : ¬ mencRanges (sent 3 keyK1 257 0 0 0 []) ∧
    ¬ mencRanges (sent 3 keyK1 0 0 249 0 []) ∧ ¬ mencRanges (sent 3 keyK1 0 8 4 0 []) := by
  unfold mencRanges overlapping; decide +kernel

/-- Row T12: the last of four source bytes is unwritten. -/
theorem witness_MencFaultsOnUnwrittenSource : ∃ s : State, mencRanges s ∧
    ∃ i, i < s.latches.lslen.toNat ∧ s.msg.read (s.latches.lsrc.toNat + i) = none :=
  ⟨sent 3 keyK1 0 4 16 0 [1, 2, 3], by unfold mencRanges overlapping; decide +kernel, 3, by decide +kernel⟩

/-- Row R14's operands: the last destination that fits. -/
theorem witness_MdecStoresThePlaintext : ∃ (s : State) (c : List Byte) (n : Nat), s.params.legal = true ∧
    mdecSource s c ∧ saltOf (frameOf s c) ≤ s.latches.lslen.toNat - 8 ∧
    checkBytesZero (frameOf s c) (saltOf (frameOf s c)) ∧
    n = s.latches.lslen.toNat - 8 - saltOf (frameOf s c) ∧ s.latches.ldst.toNat + n ≤ s.params.msgBytes ∧
    ¬ overlapping s.latches.lsrc.toNat s.latches.lslen.toNat s.latches.ldst.toNat n :=
  ⟨sent 4 keyK1 16 16 253 16 cipherV4, cipherV4, 3, by
    unfold mdecSource checkBytesZero overlapping holdsBytes; decide +kernel⟩

/-- Rows E1 and E2. -/
theorem witness_MdecInvalidLength : (sent 4 keyK1 0 0 0 0 []).latches.lslen.toNat = 0 ∧
    (sent 4 keyK1 0 12 0 0 []).latches.lslen.toNat % 8 ≠ 0 := by decide +kernel

/-- Row R12. -/
theorem witness_MdecSourceRangeError : ∃ s : State, s.latches.lslen.toNat ≠ 0 ∧
    s.latches.lslen.toNat % 8 = 0 ∧ s.params.msgBytes < s.latches.lsrc.toNat + s.latches.lslen.toNat :=
  ⟨sent 4 keyK1 248 16 0 0 [], by decide +kernel⟩

/-- Row E5: no room for the salt. -/
theorem witness_MdecIntegrityCheckFailed_salt : ∃ (s : State) (c : List Byte), mdecSource s c ∧
    s.latches.lslen.toNat - 8 < saltOf (frameOf s c) :=
  ⟨sent 4 keyK1 0 8 16 0 [0, 0, 0, 0, 0, 0, 0, 0], [0, 0, 0, 0, 0, 0, 0, 0], by
    unfold mdecSource holdsBytes; decide +kernel⟩

/-- Row E6: nonzero check bytes. -/
theorem witness_MdecIntegrityCheckFailed_check : ∃ (s : State) (c : List Byte), mdecSource s c ∧
    saltOf (frameOf s c) ≤ s.latches.lslen.toNat - 8 ∧
    ¬ checkBytesZero (frameOf s c) (saltOf (frameOf s c)) :=
  ⟨sent 4 rig.key 16 16 64 16 cipherV4, cipherV4, by
    unfold mdecSource checkBytesZero holdsBytes; decide +kernel⟩

/-- Row R13: the first destination that does not fit. -/
theorem witness_MdecDestinationRangeError_range : ∃ (s : State) (c : List Byte) (n : Nat), mdecSource s c ∧
    saltOf (frameOf s c) ≤ s.latches.lslen.toNat - 8 ∧
    checkBytesZero (frameOf s c) (saltOf (frameOf s c)) ∧
    n = s.latches.lslen.toNat - 8 - saltOf (frameOf s c) ∧ s.params.msgBytes < s.latches.ldst.toNat + n :=
  ⟨sent 4 keyK1 16 16 254 16 cipherV4, cipherV4, 3, by
    unfold mdecSource checkBytesZero holdsBytes; decide +kernel⟩

/-- Row R15: an overlap. -/
theorem witness_MdecDestinationRangeError_overlap : ∃ (s : State) (c : List Byte) (n : Nat), mdecSource s c ∧
    saltOf (frameOf s c) ≤ s.latches.lslen.toNat - 8 ∧
    checkBytesZero (frameOf s c) (saltOf (frameOf s c)) ∧
    n = s.latches.lslen.toNat - 8 - saltOf (frameOf s c) ∧
    overlapping s.latches.lsrc.toNat s.latches.lslen.toNat s.latches.ldst.toNat n :=
  ⟨sent 4 keyK1 16 16 30 16 cipherV4, cipherV4, 3, by
    unfold mdecSource checkBytesZero overlapping holdsBytes; decide +kernel⟩

theorem witness_MdecFaultsOnUnwrittenSource : ∃ s : State, s.latches.lslen.toNat ≠ 0 ∧
    s.latches.lslen.toNat % 8 = 0 ∧ s.latches.lsrc.toNat + s.latches.lslen.toNat ≤ s.params.msgBytes ∧
    ∃ i, i < s.latches.lslen.toNat ∧ s.msg.read (s.latches.lsrc.toNat + i) = none :=
  ⟨sent 4 keyK1 248 8 0 248 [1, 2, 3, 4, 5, 6, 7], by decide +kernel, by decide +kernel, by decide +kernel, 7,
    by decide +kernel⟩

/-- Three bytes, whatever the random source answers. -/
theorem witness_MencThenMdecRestoresTheMessage : ∃ (s t u : State) (p : List Byte), s.params.legal = true ∧
    mencRanges s ∧ holdsBytes s s.latches.lsrc.toNat s.latches.lslen.toNat p ∧ exec .menc s = .next t ∧
    u.params = s.params ∧ u.msg = t.msg ∧ u.latches.lk = s.latches.lk ∧ u.latches.lsrc = s.latches.ldst ∧
    u.latches.lslen = t.dlen ∧ u.latches.ldst.toNat + s.latches.lslen.toNat ≤ u.params.msgBytes ∧
    ¬ overlapping u.latches.lsrc.toNat u.latches.lslen.toNat u.latches.ldst.toNat s.latches.lslen.toNat := by
  refine ⟨sent 3 keyK1 0 3 240 0 [0x41, 0x42, 0x43], _, ?_, [0x41, 0x42, 0x43], ?_, ?_, ?_, rfl, ?_⟩
  case refine_1 =>
    exact issue 4 { rig with
      key := keyK1, src := 240, slen := 16, dst := 64
      msg := (storeMessage (codecEnc keyK1 [0x41, 0x42, 0x43] (Config.rngByte 0)) 16
        (sent 3 keyK1 0 3 240 0 [0x41, 0x42, 0x43])).msg }
  · decide
  · unfold mencRanges overlapping; decide +kernel
  · unfold holdsBytes; decide +kernel
  · exact ⟨rfl, rfl, rfl, rfl, rfl, by decide, by unfold overlapping; decide⟩

/-! ### Witnesses: all commands -/

theorem witness_CommandsThatStepHaveCompleted : (∃ t, exec .encb (sentBlock 1) = .next t) ∧
    (∃ t, exec .decb (sentBlock 2) = .next t) ∧ (∃ t, exec .menc (sent 3 keyK1 0 0 0 0 []) = .next t) ∧
    ∃ t, exec .mdec (sent 4 keyK1 0 0 0 0 []) = .next t :=
  ⟨⟨_, rfl⟩, ⟨_, rfl⟩, ⟨_, rfl⟩, ⟨_, rfl⟩⟩

theorem witness_FailedCommandsWriteNothingElse :
    (∃ t, exec .menc (sent 3 keyK1 257 0 0 0 []) = .next t ∧ t.status.err = true) ∧
    (∃ t, exec .mdec (sent 4 keyK1 0 0 0 0 []) = .next t ∧ t.status.err = true) ∧
    decode (sent 0x13 keyK1 0 0 0 0 []).latches.lop = .error .reservedBits ∧
    decode (sent 0 keyK1 0 0 0 0 []).latches.lop = .error .illegalOpcode :=
  ⟨⟨_, rfl, rfl⟩, ⟨_, rfl, rfl⟩, by decide, by decide⟩

/-! ### Witnesses: lifecycle -/

theorem witness_StepRunsTheDecodedCommand :
    (engineNext (sentBlock 1) ∧ decode (sentBlock 1).latches.lop = .ok .encb) ∧
    (engineNext (rig.withFetchWord 32 4) ∧ decode (rig.withFetchWord 32 4).latches.lop = .ok .mdec) :=
  ⟨⟨⟨rfl, .inl rfl⟩, by decide⟩, ⟨rfl, .inr ⟨[], rfl⟩⟩, by decide⟩

theorem witness_StepOfAnIllegalWordIsBadCommand :
    (engineNext (sentBlock 0) ∧ (sentBlock 0).latches.lop.toNat = 0) ∧
    (engineNext (sentBlock 5) ∧ 5 ≤ (sentBlock 5).latches.lop.toNat) ∧
    (engineNext (sentBlock 0xFFFFFFFF) ∧ 5 ≤ (sentBlock 0xFFFFFFFF).latches.lop.toNat) :=
  ⟨⟨⟨rfl, .inl rfl⟩, by decide⟩, ⟨⟨rfl, .inl rfl⟩, by decide⟩, ⟨⟨rfl, .inl rfl⟩, by decide⟩⟩

theorem witness_CmdWrites : rig.status.busy = false ∧ (sentBlock 1).status.busy = true := by decide

theorem witness_CmdWriteRacingACompletion :
    (sentBlock 1).status.busy = true ∧ ∃ t, perform (sentBlock 1) = .next t := ⟨rfl, _, rfl⟩

theorem witness_WhoChanges_busy_rises : ∃ s t : State, step s = .next t ∧ s.status.busy = false ∧
    t.status.busy = true :=
  ⟨hosted [.encb 0x4000] rig, _, rfl, rfl, rfl⟩

theorem witness_WhoChanges_busy_falls : ∃ s t : State, step s = .next t ∧ s.status.busy = true ∧
    t.status.busy = false :=
  ⟨sentBlock 1, _, rfl, rfl, rfl⟩

theorem witness_WhoChanges_dout : ∃ s t : State, step s = .next t ∧ ¬ doutKept s t :=
  ⟨sentBlock 1, _, rfl, by unfold doutKept; decide +kernel⟩

theorem witness_WhoChanges_key : ∃ s t : State, step s = .next t ∧ t.key ≠ s.key :=
  ⟨hosted [.wr 0x4000 0x008 1] rig, _, rfl, by decide +kernel⟩

theorem witness_WhoChanges_din : ∃ s t : State, step s = .next t ∧ t.din0 ≠ s.din0 ∧ t.din1 = s.din1 :=
  ⟨hosted [.wr 0x4000 0x018 1] rig, _, rfl, by decide +kernel⟩

/-- With one pending turn of a host that waits, the second step completes the command. -/
theorem witness_IssuedCommandsLeaveFlight_completes : ∃ s t : State, s.status.busy = true ∧
    s.turns.length = 1 ∧ Turn.reset ∉ s.turns ∧ core.run 2 s = .next t ∧ t.status.done = true :=
  ⟨hosted [.poll 0] (sentBlock 1), _, rfl, rfl, by decide, rfl, rfl⟩

/-- With a pending reset, the first step ends the command without completing it. -/
theorem witness_IssuedCommandsLeaveFlight_reset : ∃ s t : State, s.status.busy = true ∧ s.turns = [.reset] ∧
    core.run 1 s = .next t ∧ t.status.busy = false ∧ t.status.done = false :=
  ⟨{ sentBlock 1 with turns := [.reset] }, _, rfl, rfl, rfl, rfl, rfl⟩

/-- The same command in flight with every register different, which perform answers with a next state. -/
theorem witness_PerformReadsOnlyTheLatches : ∃ s s' t : State, samePerformInputs s s' ∧ s'.cmd ≠ s.cmd ∧
    s'.key ≠ s.key ∧ s'.dout0 ≠ s.dout0 ∧ s'.dlen ≠ s.dlen ∧ s'.status ≠ s.status ∧ perform s = .next t :=
  ⟨sentBlock 1,
    { sentBlock 1 with
      cmd := 9, key := rig.key, din0 := 1, din1 := 2, dout0 := 3, dout1 := 4, src := 5, slen := 6, dst := 7, dlen := 8
      status := Status.overrun (sentBlock 1).status },
    _, ⟨rfl, rfl, rfl, rfl⟩, by decide, by decide, by decide, by decide, by decide, rfl⟩

/-! ### Witnesses: host accesses -/

theorem rig_inv : rig.Inv :=
  ⟨by decide, ⟨by decide, by decide, by decide, by decide⟩, by decide, by decide, by decide, by decide⟩

theorem witness_ReadsAndRepeats_read : isRead (.regRead 0x004) = true ∧
    ∃ t r, hostAccess (.regRead 0x004) rig = .next (t, r) := ⟨rfl, _, _, rfl⟩

theorem witness_ReadsAndRepeats_repeat : rig.Inv ∧ isCmdWrite (.msgWriteW 252 1) = false ∧
    ∃ t r, hostAccess (.msgWriteW 252 1) rig = .next (t, r) := ⟨rig_inv, rfl, _, _, rfl⟩

theorem witness_reserved_offsets : 0x038 ≤ 0x038 ∧ 0x038 ≤ 0xFFC := by decide

theorem witness_MsgAccesses_next : (∃ t r, hostAccess (.msgWriteW 0 0x11223344) rig = .next (t, r)) ∧
    (∃ t r, hostAccess (.msgWriteW 252 0x11223344) rig = .next (t, r)) ∧
    ∃ t r, hostAccess (.msgWriteB 255 0x41) rig = .next (t, r) :=
  ⟨⟨_, _, rfl⟩, ⟨_, _, rfl⟩, ⟨_, _, rfl⟩⟩

theorem witness_MsgAccessDuringMessageCommandFaults :
    isMsgAccess (.msgReadB 200) = true ∧ isRead (.msgWriteB 0 1) = false ∧
    ((sentBlock 3).status.busy = true ∧ (sentBlock 3).latches.lop = 0x00000003) ∧
    ((sentBlock 4).status.busy = true ∧ (sentBlock 4).latches.lop = 0x00000004) ∧
    ¬ ((sentBlock 1).status.busy = true ∧
      ((sentBlock 1).latches.lop = 0x00000003 ∨ (sentBlock 1).latches.lop = 0x00000004)) ∧
    ¬ (rig.status.busy = true ∧ (rig.latches.lop = 0x00000003 ∨ rig.latches.lop = 0x00000004)) := by
  decide +kernel

/-- Row T11, and a word whose last byte alone is unwritten. -/
theorem witness_HostReadOfUnwrittenByteFaults :
    ¬ (rig.status.busy = true ∧ (rig.latches.lop = 0x00000003 ∨ rig.latches.lop = 0x00000004)) ∧
    rig.msg.read 0 = none ∧
    (∃ i, i < 4 ∧ (sentBlock 1).msg.read (0 + i) = none) ∧
    (Memory.writeBytes [] 0 [1, 2, 3]).read 3 = none ∧ (Memory.writeBytes [] 0 [1, 2, 3]).read 2 = some 3 :=
  ⟨by decide +kernel, rfl, ⟨0, by decide, rfl⟩, rfl, rfl⟩

theorem witness_HostReadOfUnwrittenByteFaults_written :
    holdsBytes { rig with msg := Memory.writeBytes [] 252 [1, 2, 3, 4] } 252 4 [1, 2, 3, 4] := by
  unfold holdsBytes; decide +kernel

theorem witness_AdmittedAccessesDecode : (0 ≤ 0xFFC ∧ 0 % 4 = 0) ∧ (0xFFC ≤ 0xFFC ∧ 0xFFC % 4 = 0) ∧
    255 < rig.params.msgBytes ∧ (252 + 4 ≤ rig.params.msgBytes ∧ 252 % 4 = 0) := by decide

theorem witness_OtherAccessesAreRefused : rig.params.legal = true ∧ 0x3FFF < rig.params.base ∧
    rig.params.base + 0x1000 + rig.params.msgBytes ≤ 0x5100 ∧
    (0x4FFF < rig.params.base + 0x1000 ∧ 8 ≠ 32) ∧ (16 ≠ 8 ∧ 16 ≠ 32) ∧ (32 = 32 ∧ 0x5001 % 4 ≠ 0) := by decide

theorem witness_PollWaitsForCompletion : ∃ h : HostAgent,
    (hosted [.poll 0] (sentBlock 1)).hosts[0]? = some h ∧ h.program[h.line]? = some (HostLine.poll h.line) ∧
    nextTurn (hosted [.poll 0] (sentBlock 1)) = some (.host 0) ∧
    (hosted [.poll 0] (sentBlock 1)).status.busy = true ∧ (hosted [.poll 0] rig).status.busy = false :=
  ⟨_, rfl, rfl, rfl, rfl, rfl⟩

theorem witness_StepRunsTheHostsLine_next : ∃ (s u : State) (h : HostAgent) (t : BusAccess) (x : HostAccess)
    (r : Option Response), s.hosts[0]? = some h ∧ nextTurn s = some (.host 0) ∧
    h.program[h.line]? = some (.bus t) ∧ decodeAccess s.params.base s.params.msgBytes t = .ok x ∧
    hostAccess x (afterTurn s) = .next (u, r) :=
  ⟨hosted [.wrw 0x4000 252 1] rig, _, _, _, .msgWriteW 252 1, _, rfl, rfl, rfl, by decide, rfl⟩

theorem witness_StepRunsTheHostsLine_fault : ∃ (s : State) (h : HostAgent) (l : HostLine) (x : HostAccess)
    (f : Fault), s.hosts[0]? = some h ∧ nextTurn s = some (.host 0) ∧ h.program[h.line]? = some l ∧
    decodeAccess s.params.base s.params.msgBytes (lineTransaction s.params.base l) = .ok x ∧
    hostAccess x (afterTurn s) = .fault f :=
  ⟨hosted [.rdb 0x4000 0] rig, _, _, .msgReadB 0, _, rfl, rfl, rfl, by decide, rfl⟩

/-- Row T13's misaligned register read, and a `bbs` at an offset that is no multiple of 4. -/
theorem witness_StepRunsTheHostsLine_refused : ∃ (s s' : State) (h h' : HostAgent) (l l' : HostLine),
    s.hosts[0]? = some h ∧ nextTurn s = some (.host 0) ∧ h.program[h.line]? = some l ∧
    decodeAccess s.params.base s.params.msgBytes (lineTransaction s.params.base l) = .error .misaligned ∧
    s'.hosts[0]? = some h' ∧ nextTurn s' = some (.host 0) ∧ h'.program[h'.line]? = some l' ∧
    decodeAccess s'.params.base s'.params.msgBytes (lineTransaction s'.params.base l') = .error .misaligned :=
  ⟨hosted [.rd 0x4000 0x002] rig, hosted [.bbs 0x006 0 0] rig, _, _, _, _, rfl, rfl, rfl, by decide, rfl, rfl, rfl,
    by decide⟩

/-- A `bbs` at offset 0x1000 reads the first MSG RAM word (log 21). -/
theorem witness_StepRunsTheHostsLine_bbs_msg : ∃ (s u : State) (h : HostAgent) (x : HostAccess) (w : Word),
    s.hosts[0]? = some h ∧ nextTurn s = some (.host 0) ∧ h.program[h.line]? = some (.bbs 0x1000 0 0) ∧
    decodeAccess s.params.base s.params.msgBytes (.read 32 (s.params.base + 0x1000)) = .ok x ∧
    hostAccess x (afterTurn s) = .next (u, some (.word w)) :=
  ⟨hosted [.bbs 0x1000 0 0] { rig with msg := Memory.writeBytes [] 0 [0, 0, 0, 1] }, _, _, .msgReadW 0, _, rfl, rfl,
    rfl, by decide, rfl⟩

theorem witness_StepRunsTheHostsLine_bbs : ∃ (s : State) (h : HostAgent) (w : Word),
    s.hosts[0]? = some h ∧ nextTurn s = some (.host 0) ∧ h.program[h.line]? = some (.bbs 0xFFC 31 0) ∧
    0xFFC ≤ 0xFFC ∧ 0xFFC % 4 = 0 ∧
    hostAccess (.regRead 0xFFC) (afterTurn s) = .next (afterTurn s, some (.word w)) :=
  ⟨hosted [.bbs 0xFFC 31 0] rig, _, _, rfl, rfl, rfl, by decide, by decide, rfl⟩

/-! ### Witnesses: reset and the invariant -/

theorem witness_ResetClearsEverything : ∃ (s : State) (ts : List Turn), s.turns = .reset :: ts ∧
    s.status.busy = true :=
  ⟨{ sentBlock 1 with turns := [.reset, .engine] }, _, rfl, rfl⟩

theorem witness_StepKeepsInv : ∃ s t : State, s.Inv ∧ step s = .next t :=
  ⟨sentBlock 1, _, ⟨by decide, ⟨by decide, by decide, by decide, by decide⟩, by decide, by decide, by decide,
    by decide⟩, rfl⟩

end Sys2Proof.Tests
end

/-! Proofs of the statements of 00_scope.md: the invariant at reset and across every step (R7, with 10_state.md
R16, R22, R31), and XOR of 8-byte strings (R10). -/

section

namespace Sys2Proof.Machine

/-! ### STATUS keeps its own invariant -/

/-- An error that a command produces has a legal code (60_exceptions.md R98). -/
theorem ecodeOf_legal {o : Option ErrorCode} (ho : o ≠ some .invalidKeyLength) : ecodeLegal (ecodeOf o) = true := by
  cases o with
  | none => rfl
  | some e =>
    cases e with
    | invalidKeyLength => exact absurd rfl ho
    | invalidLength | integrityCheckFailed | badCommand | rangeError => rfl

/-- Only success has code 0 (R22, R98). -/
theorem isSome_iff_ecodeOf_ne_zero (o : Option ErrorCode) : o.isSome = true ↔ ecodeOf o ≠ 0 := by
  cases o with
  | none => simp
  | some e => cases e <;> decide

theorem issued_inv : Status.issued.Inv := ⟨by decide, by decide, by decide, by decide⟩

theorem overrun_inv {t : Status} (h : t.Inv) (hb : t.busy = true) : t.overrun.Inv where
  ecode_legal := h.ecode_legal
  err_iff := h.err_iff
  busy_clears := h.busy_clears
  idle_fresh := fun hidle => absurd (hb.symm.trans hidle) (by decide)

theorem completed_inv {o : Option ErrorCode} (ho : o ≠ some .invalidKeyLength) (t : Status) :
    (t.completed o).Inv where
  ecode_legal := ecodeOf_legal ho
  err_iff := isSome_iff_ecodeOf_ne_zero o
  busy_clears := by simp
  idle_fresh := by simp

/-! ### What the invariant reads of a state -/

/-- The invariant reads only the parameters, CMD, STATUS, MSG RAM and the latches. -/
theorem State.Inv.congr {s t : State} (h : s.Inv) (hparams : t.params = s.params) (hcmd : t.cmd = s.cmd)
    (hstatus : t.status = s.status) (hmsg : t.msg = s.msg) (hlatches : t.latches = s.latches) : t.Inv where
  params_legal := by rw [hparams]; exact h.params_legal
  status := by rw [hstatus]; exact h.status
  msg_wf := by rw [hmsg]; exact h.msg_wf
  msg_within := by rw [hmsg, hparams]; exact h.msg_within
  in_flight := by rw [hstatus, hlatches, hcmd]; exact h.in_flight
  never_issued := by rw [hstatus, hcmd]; exact h.never_issued

/-- A state that looks as if just reset meets the invariant, whatever its legal parameters (R113). -/
theorem inv_of_reset_registers {t : State} (hparams : t.params.legal = true) (hcmd : t.cmd = 0)
    (hstatus : t.status = State.reset.status) (hmsg : t.msg = []) : t.Inv where
  params_legal := hparams
  status := by rw [hstatus]; exact ⟨by decide, by decide, by decide, by decide⟩
  msg_wf := by rw [hmsg]; exact Memory.wf_nil
  msg_within := by rw [hmsg]; rfl
  in_flight := by rw [hstatus]; exact fun hbusy => absurd hbusy (by decide)
  never_issued := fun _ _ => hcmd

/-! ### Every shared operation keeps the invariant -/

theorem takeTurn_inv {s : State} (h : s.Inv) : (takeTurn s).Inv := h.congr rfl rfl rfl rfl rfl

theorem resetEngine_inv {s : State} (h : s.Inv) : (resetEngine s).Inv :=
  inv_of_reset_registers h.params_legal rfl rfl rfl

/-- A run of bytes that fits in MSG RAM may be written there (R31, R41). -/
theorem writeMsg_inv {s : State} {a : Nat} {bs : List Byte} (h : s.Inv) (ha : a + bs.length ≤ s.params.msgBytes) :
    State.Inv { s with msg := s.msg.writeBytes a bs } :=
  { h with
    msg_wf := Memory.writeBytes_wf a bs h.msg_wf
    msg_within := Memory.writeBytes_within h.msg_within ha }

theorem issue_inv {s : State} (w : Word) (h : s.Inv) : (issue w s).Inv where
  params_legal := h.params_legal
  status := issued_inv
  msg_wf := h.msg_wf
  msg_within := h.msg_within
  in_flight := fun _ => rfl
  never_issued := fun hidle => absurd hidle (by decide : Status.issued.busy ≠ false)

theorem writeCmd_inv {s : State} (w : Word) (h : s.Inv) : (writeCmd w s).Inv := by
  cases hb : s.status.busy with
  | false =>
    rw [writeCmd_idle w hb]
    exact issue_inv w h
  | true =>
    rw [writeCmd_busy w hb]
    exact { h with status := overrun_inv h.status hb }

theorem regWrite_inv {s : State} (o : Nat) (w : Word) (h : s.Inv) : (regWrite o w s).Inv := by
  rcases regWrite_cases o w s with ⟨-, hcmd⟩ | ⟨-, heff⟩
  · rw [hcmd]
    exact writeCmd_inv w h
  · exact h.congr heff.params heff.cmd heff.status heff.msg heff.latches

/-! ### Every agent keeps the invariant -/

/-- An access inside the window keeps the invariant; the window is what keeps MSG RAM in its bounds (R38). -/
theorem hostAccess_inv {x : HostAccess} {s t : State} {r : Option Response} (h : s.Inv)
    (hx : x.inside s.params.msgBytes) (hacc : hostAccess x s = .next (t, r)) : t.Inv := by
  rcases hostAccess_cases hacc with rfl | ⟨o, w, rfl, rfl⟩ | ⟨-, ⟨a, b, rfl, rfl⟩ | ⟨a, w, rfl, rfl⟩⟩
  · exact h
  · exact regWrite_inv o w h
  · exact writeMsg_inv h hx
  · exact writeMsg_inv h hx

/-- A completed command keeps the invariant, whatever it did: BUSY is 0 and DONE is 1, so of the invariant only
STATUS and MSG RAM are at stake. -/
theorem CommandEffect.inv {s t : State} (heff : CommandEffect s t) (h : s.Inv) : t.Inv := by
  obtain ⟨o, hstatus, ho⟩ := heff.status
  have hmsg : t.msg.wf = true ∧ t.msg.within s.params.msgBytes = true := by
    rcases heff.msg with hm | ⟨bs, hfit, hm⟩ <;> rw [hm]
    · exact ⟨h.msg_wf, h.msg_within⟩
    · exact ⟨Memory.writeBytes_wf _ bs h.msg_wf, Memory.writeBytes_within h.msg_within hfit⟩
  exact {
    params_legal := by rw [heff.params]; exact h.params_legal
    status := by rw [hstatus]; exact completed_inv ho s.status
    msg_wf := hmsg.1
    msg_within := by rw [heff.params]; exact hmsg.2
    in_flight := by simp [hstatus]
    never_issued := by simp [hstatus] }

/-- The machine's step keeps the invariant, whoever moves (20_memory.md R48). -/
theorem step_inv {s t : State} (h : s.Inv) (hstep : step s = .next t) : t.Inv := by
  have hturn : (takeTurn s).Inv := takeTurn_inv h
  rcases step_cases hstep with ⟨-, rfl⟩ | ⟨-, rfl⟩ | ⟨-, -, rfl⟩ | ⟨-, -, hperf⟩ |
    ⟨k, -, rfl | ⟨x, u, r, hs, hx, hacc, rfl⟩⟩
  · exact h
  · exact resetEngine_inv hturn
  · exact hturn
  · exact (perform_effect hperf).inv hturn
  · exact hturn
  · have hu : u.Inv := hostAccess_inv hturn hx hacc
    exact hu.congr rfl rfl rfl rfl rfl

/-! ### The parameters after reset -/

theorem Params.legal_iff {p : Params} : p.legal = true ↔
    p.base % 4096 = 0 ∧ p.msgBytes % 4 = 0 ∧ 16 ≤ p.msgBytes ∧ p.msgBytes ≤ 0x7FFFF000 :=
  decide_eq_true_iff

/-- The constants of Config obey the constraints of R7, whatever their free parts are. -/
theorem reset_params_legal : State.reset.params.legal = true := by
  rw [Params.legal_iff]
  simp only [State.reset, Config.base, Config.msgBytes]
  omega

/-! ### The obligations -/

/-- Settles O60, from the inversion lemma of the step: each agent's move keeps the invariant. -/
theorem stepKeepsInv : Obligations.StepKeepsInv := by
  unfold Obligations.StepKeepsInv
  intro s t h hstep
  exact step_inv h hstep

/-- Settles O59: reset leaves idle registers and an empty MSG RAM, and the open parameters are legal. -/
theorem invHoldsAtReset : Obligations.InvHoldsAtReset := by
  unfold Obligations.InvHoldsAtReset
  exact inv_of_reset_registers reset_params_legal rfl rfl rfl

/-- Settles O7: taking out byte i of a word commutes with XOR, for each of the eight bytes. -/
theorem blockXorIsBytewise : Obligations.BlockXorIsBytewise := by
  unfold Obligations.BlockXorIsBytewise
  intro a b
  simp only [Claims.blockBytes, Block.xor, BitVec.extractLsb'_xor, List.zipWith_cons_cons, List.zipWith_nil_left]

end Sys2Proof.Machine

end

/-! Proofs of the statements of 10_state.md: what the registers, STATUS and MSG RAM store and return to a host (R15,
R17, R23 to R31), and which agent can change BUSY, DOUT, KEY and DIN in a step (R18, R24, R25). -/

section

namespace Sys2Proof.Machine

/-! ### The word of STATUS -/

/-- The fields of STATUS at their places (R17), as a number. -/
theorem Status.toWord_toNat (t : Status) : t.toWord.toNat =
    t.busy.toNat + 2 * t.done.toNat + 4 * t.err.toNat + 8 * t.ovr.toNat + 16 * t.ecode.toNat := by
  simp only [Status.toWord, BitVec.append_ofBool, BitVec.toNat_concat, BitVec.toNat_append, BitVec.toNat_ofNat,
    Nat.zero_mod, Nat.zero_shiftLeft, Nat.zero_or]
  omega

theorem Status.toWord_flags (t : Status) : t.toWord.getLsbD 0 = t.busy ∧ t.toWord.getLsbD 1 = t.done ∧
    t.toWord.getLsbD 2 = t.err ∧ t.toWord.getLsbD 3 = t.ovr := by
  simp only [Status.toWord, BitVec.append_ofBool, BitVec.getLsbD_concat_succ, BitVec.getLsbD_concat_zero, and_self]

/-- The four flags stand below ECODE, so they are cut away one by one. -/
theorem Status.toWord_extract_above_flags (t : Status) (start len : Nat) :
    t.toWord.extractLsb' (start + 4) len = (0#24 ++ t.ecode).extractLsb' start len := by
  rw [Status.toWord]
  iterate 4 rw [BitVec.extractLsb'_append_eq_of_le (by omega)]
  rfl

theorem Status.toWord_ecode (t : Status) : t.toWord.extractLsb' 4 4 = t.ecode := by
  rw [t.toWord_extract_above_flags 0 4, BitVec.extractLsb'_append_eq_right]

theorem Status.toWord_reserved (t : Status) : t.toWord.extractLsb' 8 24 = 0 := by
  rw [t.toWord_extract_above_flags 4 24, BitVec.extractLsb'_append_eq_left]
  rfl

/-! ### Register accesses by register -/

theorem hostAccess_regRead_offset (s : State) (r : Reg) :
    hostAccess (.regRead r.offset) s = .next (s, some (.word (s.readReg r))) := by
  simp only [hostAccess, regRead, ofOffset_offset]

theorem hostAccess_regRead_reserved (s : State) {o : Nat} (h : 0x038 ≤ o) :
    hostAccess (.regRead o) s = .next (s, some (.word 0)) := by
  simp only [hostAccess, regRead, ofOffset_reserved h]

theorem hostAccess_regWrite_offset (s : State) (r : Reg) (w : Word) :
    hostAccess (.regWrite r.offset w) s = .next (writeReg r w s, none) := by
  simp only [hostAccess, regWrite, ofOffset_offset]

/-! ### Byte accesses to MSG RAM -/

theorem hostAccess_msgReadB_written {s : State} {a : Nat} {b : Byte} (hidle : messageInFlight s = false)
    (hb : s.msg.read a = some b) : hostAccess (.msgReadB a) s = .next (s, some (.byte b)) := by
  simp [hostAccess, hidle, hb]

/-- A byte write has a step exactly while no message command is in flight, and stores that byte (R39, R118). -/
theorem hostAccess_msgWriteB_eq_next {s t : State} {a : Nat} {b : Byte} {r : Option Response} :
    hostAccess (.msgWriteB a b) s = .next (t, r) ↔
      messageInFlight s = false ∧ t = { s with msg := s.msg.write a b } ∧ r = none := by
  cases h : messageInFlight s <;> simp [hostAccess, h, eq_comm]

/-! ### What a host can see of the keys -/

/-- `s` with other words in KEY0..KEY3 and in LK[0..3] (R23, R32). -/
def withKeys (k lk : Key) (s : State) : State :=
  { s with key := k, latches := { s.latches with lk := lk } }

@[simp] theorem withKeys_msg (k lk : Key) (s : State) : (withKeys k lk s).msg = s.msg := rfl

/-- The test of R118 reads LOP and BUSY, never a key. -/
@[simp] theorem messageInFlight_withKeys (k lk : Key) (s : State) :
    messageInFlight (withKeys k lk s) = messageInFlight s := rfl

@[simp] theorem readReg_withKeys (k lk : Key) (s : State) (r : Reg) : (withKeys k lk s).readReg r = s.readReg r := by
  cases r <;> rfl

@[simp] theorem regRead_withKeys (k lk : Key) (s : State) (o : Nat) : regRead o (withKeys k lk s) = regRead o s := by
  simp only [regRead, readReg_withKeys]

/-! ### What a host can change -/

theorem writeCmd_status_busy (w : Word) (s : State) : (writeCmd w s).status.busy = true := by
  cases hb : s.status.busy with
  | false => rw [writeCmd_idle w hb]; rfl
  | true => rw [writeCmd_busy w hb]; exact hb

theorem writeCmd_doutKept (w : Word) (s : State) : Claims.doutKept s (writeCmd w s) := by
  cases hb : s.status.busy with
  | false => rw [writeCmd_idle w hb]; exact ⟨rfl, rfl⟩
  | true => rw [writeCmd_busy w hb]; exact ⟨rfl, rfl⟩

/-- No host access ends a command in flight (R18). -/
theorem hostAccess_keeps_busy {x : HostAccess} {s t : State} {r : Option Response}
    (h : hostAccess x s = .next (t, r)) (hb : s.status.busy = true) : t.status.busy = true := by
  rcases hostAccess_cases h with rfl | ⟨o, w, rfl, rfl⟩ | ⟨-, ⟨a, b, rfl, rfl⟩ | ⟨a, w, rfl, rfl⟩⟩
  · exact hb
  · rcases regWrite_cases o w s with ⟨-, hcmd⟩ | ⟨-, heff⟩
    · rw [hcmd, writeCmd_status_busy]
    · rw [heff.status, hb]
  · exact hb
  · exact hb

/-- No host access writes DOUT (R25). -/
theorem hostAccess_doutKept {x : HostAccess} {s t : State} {r : Option Response}
    (h : hostAccess x s = .next (t, r)) : Claims.doutKept s t := by
  rcases hostAccess_cases h with rfl | ⟨o, w, rfl, rfl⟩ | ⟨-, ⟨a, b, rfl, rfl⟩ | ⟨a, w, rfl, rfl⟩⟩
  · exact ⟨rfl, rfl⟩
  · rcases regWrite_cases o w s with ⟨-, hcmd⟩ | ⟨-, heff⟩
    · rw [hcmd]
      exact writeCmd_doutKept w s
    · exact ⟨heff.dout0, heff.dout1⟩
  · exact ⟨rfl, rfl⟩
  · exact ⟨rfl, rfl⟩

/-! ### The word of a decoded command -/

theorem decodeOp_eq_ok {op : BitVec 4} {i : Instr} (h : decodeOp op = .ok i) : op = i.op := by
  unfold decodeOp at h
  split at h <;> cases h <;> rfl

/-- A word that decodes to a command is that command's word (R53, R54). -/
theorem eq_encode_of_decode {w : Word} {i : Instr} (h : decode w = .ok i) : w = encode i := by
  unfold decode at h
  split at h
  · rename_i hrsvd
    have hop := decodeOp_eq_ok h
    simp only [commandFields] at hrsvd hop
    rw [encode, commandWord, ← hop, ← hrsvd]
    exact (BitVec.extractLsb'_append_extractLsb' (w := 28) (len := 4)).symm
  · cases h

/-! ### Which commands write DOUT -/

theorem raise_doutKept (e : ErrorCode) (s : State) : Claims.doutKept s (raise e s) :=
  ⟨raise_dout0 e s, raise_dout1 e s⟩

theorem execMenc_doutKept {s t : State} (h : exec .menc s = .next t) : Claims.doutKept s t := by
  simp only [exec, execMenc] at h
  rcases mencWith_cases (Config.rngByte s.draws) s with
    ⟨-, h'⟩ | ⟨-, -, h'⟩ | ⟨-, p, -, h'⟩ <;> rw [h'] at h <;> cases h
  · exact raise_doutKept _ s
  · exact ⟨rfl, rfl⟩

theorem mdecStore_doutKept (c : List Byte) (s : State) : Claims.doutKept s (mdecStore c s) := by
  rcases mdecStore_cases c s with ⟨-, h⟩ | ⟨p, n, -, -, h⟩ | ⟨p, n, -, -, h⟩ <;> rw [h]
  · exact raise_doutKept _ s
  · exact raise_doutKept _ s
  · exact ⟨rfl, rfl⟩

theorem execMdec_doutKept {s t : State} (h : exec .mdec s = .next t) : Claims.doutKept s t := by
  simp only [exec] at h
  rcases execMdec_cases s with
    ⟨-, h'⟩ | ⟨-, -, h'⟩ | ⟨-, -, -, h'⟩ | ⟨-, -, c, -, h'⟩ <;> rw [h'] at h <;> cases h
  · exact raise_doutKept _ s
  · exact raise_doutKept _ s
  · exact mdecStore_doutKept c s

/-- Only ENCB and DECB write DOUT (R25): a perform step with any other word in LOP leaves it. -/
theorem perform_doutKept {s t : State} (h : perform s = .next t) :
    Claims.doutKept s t ∨ s.latches.lop = 0x00000001 ∨ s.latches.lop = 0x00000002 := by
  rcases perform_cases h with ⟨i, hdec, hexec⟩ | ⟨e, -, rfl⟩
  · have hlop : s.latches.lop = encode i := eq_encode_of_decode hdec
    cases i with
    | encb => exact .inr (.inl hlop)
    | decb => exact .inr (.inr hlop)
    | menc => exact .inl (execMenc_doutKept hexec)
    | mdec => exact .inl (execMdec_doutKept hexec)
  · exact .inl (raise_doutKept _ s)

/-! ### Who changes what in a step -/

theorem step_params {s t : State} (h : step s = .next t) : t.params = s.params := by
  rcases step_cases h with ⟨-, rfl⟩ | ⟨-, rfl⟩ | ⟨-, -, rfl⟩ | ⟨-, -, hperf⟩ |
    ⟨k, -, rfl | ⟨x, u, r, hs, -, hacc, rfl⟩⟩
  · rfl
  · rfl
  · rfl
  · exact (perform_effect hperf).params
  · rfl
  · exact (hostAccess_agents hacc).1

theorem step_busy_rises {s t : State} (h : step s = .next t) (hs : s.status.busy = false)
    (ht : t.status.busy = true) : ∃ k, nextTurn s = some (.host k) := by
  rcases step_cases h with ⟨-, rfl⟩ | ⟨-, rfl⟩ | ⟨-, -, rfl⟩ | ⟨-, hbusy, -⟩ | ⟨k, hk, -⟩
  · exact absurd (hs.symm.trans ht) (by decide)
  · exact absurd ht (by decide : State.reset.status.busy ≠ true)
  · exact absurd (hs.symm.trans ht) (by decide)
  · exact absurd (hs.symm.trans hbusy) (by decide)
  · exact ⟨k, hk⟩

theorem step_busy_falls {s t : State} (h : step s = .next t) (hs : s.status.busy = true)
    (ht : t.status.busy = false) : nextTurn s = some .engine ∨ nextTurn s = some .reset := by
  rcases step_cases h with ⟨-, rfl⟩ | ⟨hturn, -⟩ | ⟨hturn, -⟩ | ⟨hturn, -⟩ |
    ⟨k, -, rfl | ⟨x, u, r, hs', -, hacc, rfl⟩⟩
  · exact absurd (hs.symm.trans ht) (by decide)
  · exact .inr hturn
  · exact .inl hturn
  · exact .inl hturn
  · exact absurd (hs.symm.trans ht) (by decide)
  · exact absurd ((hostAccess_keeps_busy hacc hs).symm.trans ht) (by decide)

theorem step_dout_changes {s t : State} (h : step s = .next t) (hd : ¬ Claims.doutKept s t) :
    nextTurn s = some .reset ∨ (nextTurn s = some .engine ∧ s.status.busy = true ∧
      (s.latches.lop = 0x00000001 ∨ s.latches.lop = 0x00000002)) := by
  rcases step_cases h with ⟨-, rfl⟩ | ⟨hturn, -⟩ | ⟨-, -, rfl⟩ | ⟨hturn, hbusy, hperf⟩ |
    ⟨k, -, rfl | ⟨x, u, r, hs, -, hacc, rfl⟩⟩
  · exact absurd ⟨rfl, rfl⟩ hd
  · exact .inl hturn
  · exact absurd ⟨rfl, rfl⟩ hd
  · exact .inr ⟨hturn, hbusy, (perform_doutKept hperf).resolve_left hd⟩
  · exact absurd ⟨rfl, rfl⟩ hd
  · exact absurd (hostAccess_doutKept hacc) hd

theorem step_key_or_din_changes {s t : State} (h : step s = .next t)
    (hc : t.key ≠ s.key ∨ t.din0 ≠ s.din0 ∨ t.din1 ≠ s.din1) :
    nextTurn s = some .reset ∨ ∃ k, nextTurn s = some (.host k) := by
  rcases step_cases h with ⟨-, rfl⟩ | ⟨hturn, -⟩ | ⟨-, -, rfl⟩ | ⟨-, -, hperf⟩ | ⟨k, hk, -⟩
  · simp at hc
  · exact .inl hturn
  · simp at hc
  · have heff := perform_effect hperf
    simp [heff.key, heff.din0, heff.din1] at hc
  · exact .inr ⟨k, hk⟩

/-! ### The obligations -/

/-- Settles O41, from what each agent's move can change: one lemma per clause. -/
theorem whoChangesWhatInAStep : Obligations.WhoChangesWhatInAStep := by
  unfold Obligations.WhoChangesWhatInAStep
  intro s t h
  exact ⟨step_params h, step_busy_rises h, step_busy_falls h, step_dout_changes h, step_key_or_din_changes h⟩

/-- Settles O43: the word a STATUS read returns, field by field. -/
theorem statusLayout : Obligations.StatusLayout := by
  unfold Obligations.StatusLayout
  intro s
  obtain ⟨hbusy, hdone, herr, hovr⟩ := s.status.toWord_flags
  exact ⟨_, hostAccess_regRead_offset s .status, hbusy, hdone, herr, hovr, s.status.toWord_ecode,
    s.status.toWord_reserved⟩

/-- Settles O45: each offset of the register map reads its register, and the others read 0. -/
theorem registerReads : Obligations.RegisterReads := by
  unfold Obligations.RegisterReads
  intro s
  have hzero : ∀ o, (o = 0x008 ∨ o = 0x00C ∨ o = 0x010 ∨ o = 0x014 ∨ 0x038 ≤ o) →
      hostAccess (.regRead o) s = .next (s, some (.word 0)) := by
    rintro o (rfl | rfl | rfl | rfl | hreserved)
    · exact hostAccess_regRead_offset s .key0
    · exact hostAccess_regRead_offset s .key1
    · exact hostAccess_regRead_offset s .key2
    · exact hostAccess_regRead_offset s .key3
    · exact hostAccess_regRead_reserved s hreserved
  have hread := hostAccess_regRead_offset s
  exact ⟨hread .cmd, ⟨_, hread .status, s.status.toWord_toNat⟩, hzero, hread .din0, hread .din1, hread .dout0,
    hread .dout1, hread .src, hread .slen, hread .dst, hread .dlen⟩

/-- Settles O46: a write at a register's offset is that register's write, whatever STATUS says. -/
theorem operandWritesStore : Obligations.OperandWritesStore := by
  unfold Obligations.OperandWritesStore
  intro s w
  have hwrite : ∀ r : Reg, hostAccess (.regWrite r.offset w) s = .next (writeReg r w s, none) := fun r =>
    hostAccess_regWrite_offset s r w
  exact ⟨hwrite .key0, hwrite .key1, hwrite .key2, hwrite .key3, hwrite .din0, hwrite .din1, hwrite .src,
    hwrite .slen, hwrite .dst⟩

/-- Settles O47: a read returns no key, and whether an access faults depends on LOP, BUSY and MSG RAM alone. -/
theorem keysAreNeverReadBack : Obligations.KeysAreNeverReadBack := by
  unfold Obligations.KeysAreNeverReadBack
  intro x s k lk
  rw [← withKeys]
  cases x with
  | regRead o => exact ⟨withKeys k lk s, by simp [hostAccess]⟩
  | regWrite o w => exact ⟨_, rfl⟩
  | msgReadB a =>
    cases hm : messageInFlight s with
    | true => simp [hostAccess, hm]
    | false => cases hb : s.msg.read a <;> simp [hostAccess, hm, hb]
  | msgWriteB a b => cases hm : messageInFlight s <;> simp [hostAccess, hm]
  | msgReadW a =>
    cases hm : messageInFlight s with
    | true => simp [hostAccess, hm]
    | false => cases hw : s.msg.readWord a <;> simp [hostAccess, hm, hw]
  | msgWriteW a w => cases hm : messageInFlight s <;> simp [hostAccess, hm]

/-- Settles O49: the write's step stores the byte, which MSG RAM then holds, and touches no other field. -/
theorem msgByteWriteReadsBack : Obligations.MsgByteWriteReadsBack := by
  unfold Obligations.MsgByteWriteReadsBack
  intro s t a b r h
  obtain ⟨hidle, rfl, -⟩ := hostAccess_msgWriteB_eq_next.mp h
  have hread := hostAccess_msgReadB_written (s := { s with msg := s.msg.write a b }) hidle
    (Memory.read_write_same s.msg a b)
  have hkept : Claims.bytesKeptOutside a 1 s { s with msg := s.msg.write a b } := fun c hc =>
    Memory.read_write_other s.msg b (by omega)
  exact ⟨hread, hkept, ⟨rfl, rfl, rfl, rfl, rfl, rfl, rfl, rfl, rfl, rfl⟩, ⟨rfl, rfl⟩, rfl, rfl, rfl⟩

end Sys2Proof.Machine

end

/-! Proofs of the statements of 20_memory.md: byte order (R40), the decoding of bus transactions (R38, R39, R43, R44),
word accesses to MSG RAM (R42), accesses without side effects (R45, R47) and the step of a host (R48, with
30_encoding.md R64 and R66). -/

section

namespace Sys2Proof.Machine

/-! ### Byte order -/

/-- A word weighs its four bytes, the one in bits 31:24 most. -/
theorem toNat_eq_sum_of_bytes (w : Word) :
    w.toNat = (w.extractLsb' 24 8).toNat * 2 ^ 24 + (w.extractLsb' 16 8).toNat * 2 ^ 16 +
      (w.extractLsb' 8 8).toNat * 2 ^ 8 + (w.extractLsb' 0 8).toNat := by
  have hw : w.toNat < 2 ^ 32 := w.isLt
  simp only [BitVec.extractLsb'_toNat, Nat.shiftRight_eq_div_pow]
  omega

/-- BE32 weighs its bytes most significant first (R40): UNBE32 finds them again as the bytes of the word. -/
theorem be32_toNat (b0 b1 b2 b3 : Byte) : (be32 b0 b1 b2 b3).toNat =
    b0.toNat * 2 ^ 24 + b1.toNat * 2 ^ 16 + b2.toNat * 2 ^ 8 + b3.toNat := by
  have hbytes := unbe32_be32 b0 b1 b2 b3
  simp only [unbe32, List.cons.injEq, and_true] at hbytes
  obtain ⟨h0, h1, h2, h3⟩ := hbytes
  rw [toNat_eq_sum_of_bytes, h0, h1, h2, h3]

theorem toBytes_eq_blockBytes (b : Block) : b.toBytes = Claims.blockBytes b := rfl

/-! ### Decoding of bus transactions -/

theorem inWindow_add {mb off : Nat} (base : Nat) (h : off < MSG_OFFSET + mb) :
    inWindow base mb (base + off) = true := by
  rw [inWindow, decide_eq_true_eq]
  omega

/-- Inside the window a read is decoded at its offset from BASE (R38). -/
theorem decodeAccess_read {mb off : Nat} (base width : Nat) (h : off < MSG_OFFSET + mb) :
    decodeAccess base mb (.read width (base + off)) = decodeRead mb width off := by
  simp only [decodeAccess, BusAccess.addr, inWindow_add base h, if_true, Nat.add_sub_cancel_left]

/-- Inside the window a write is decoded at its offset from BASE (R38). -/
theorem decodeAccess_write {mb off : Nat} (base width data : Nat) (h : off < MSG_OFFSET + mb) :
    decodeAccess base mb (.write width (base + off) data) = decodeWrite mb width off data := by
  simp only [decodeAccess, BusAccess.addr, inWindow_add base h, if_true, Nat.add_sub_cancel_left]

theorem decodeRead_register {off : Nat} (mb : Nat) (h : off < MSG_OFFSET) (h4 : off % 4 = 0) :
    decodeRead mb 32 off = .ok (.regRead off) := by
  simp [decodeRead, h, h4]

theorem decodeWrite_register {off : Nat} (mb data : Nat) (h : off < MSG_OFFSET) (h4 : off % 4 = 0) :
    decodeWrite mb 32 off data = .ok (.regWrite off (BitVec.ofNat 32 data)) := by
  simp [decodeWrite, h, h4]

/-- An aligned read at a register offset is admitted as that register read (R39). -/
theorem decodeAccess_regRead (base mb : Nat) {o : Nat} (ho : o ≤ 0xFFC) (h4 : o % 4 = 0) :
    decodeAccess base mb (.read 32 (base + o)) = .ok (.regRead o) := by
  have hreg : o < MSG_OFFSET := Nat.lt_of_le_of_lt ho (by decide)
  rw [decodeAccess_read base 32 (Nat.lt_add_right mb hreg), decodeRead_register mb hreg h4]

theorem decodeRead_msgByte (mb a : Nat) : decodeRead mb 8 (MSG_OFFSET + a) = .ok (.msgReadB a) := by
  simp [decodeRead]

theorem decodeWrite_msgByte (mb a data : Nat) :
    decodeWrite mb 8 (MSG_OFFSET + a) data = .ok (.msgWriteB a (BitVec.ofNat 8 data)) := by
  simp [decodeWrite]

/-- MSG RAM begins at a multiple of 4, so a word is aligned in the window as it is in MSG RAM (R43). -/
theorem msgOffset_add_mod (a : Nat) : (MSG_OFFSET + a) % 4 = a % 4 := by
  rw [MSG_OFFSET]
  omega

theorem decodeRead_msgWord {mb a : Nat} (h : a + 4 ≤ mb) (h4 : a % 4 = 0) :
    decodeRead mb 32 (MSG_OFFSET + a) = .ok (.msgReadW a) := by
  rw [decodeRead, if_neg (Nat.not_lt.mpr (Nat.le_add_right MSG_OFFSET a)), if_neg (by decide), if_pos rfl,
    if_pos ((msgOffset_add_mod a).trans h4), Nat.add_sub_cancel_left, if_pos h]

theorem decodeWrite_msgWord {mb a : Nat} (data : Nat) (h : a + 4 ≤ mb) (h4 : a % 4 = 0) :
    decodeWrite mb 32 (MSG_OFFSET + a) data = .ok (.msgWriteW a (BitVec.ofNat 32 data)) := by
  rw [decodeWrite, if_neg (Nat.not_lt.mpr (Nat.le_add_right MSG_OFFSET a)), if_neg (by decide), if_pos rfl,
    if_pos ((msgOffset_add_mod a).trans h4), Nat.add_sub_cancel_left, if_pos h]

/-- The widths and alignments that R39 admits at an offset of the window: aligned words anywhere, bytes in MSG RAM. -/
def WidthAdmitted (width off : Nat) : Prop :=
  (width = 32 ∧ off % 4 = 0) ∨ (width = 8 ∧ MSG_OFFSET ≤ off)

theorem widthAdmitted_of_decodeRead {mb width off : Nat} {x : HostAccess} (h : decodeRead mb width off = .ok x) :
    WidthAdmitted width off := by
  unfold decodeRead at h
  repeat' split at h
  all_goals cases h
  · exact .inl ⟨‹width = 32›, ‹off % 4 = 0›⟩
  · exact .inr ⟨‹width = 8›, Nat.not_lt.mp ‹_›⟩
  · exact .inl ⟨‹width = 32›, ‹off % 4 = 0›⟩

theorem widthAdmitted_of_decodeWrite {mb width off data : Nat} {x : HostAccess}
    (h : decodeWrite mb width off data = .ok x) : WidthAdmitted width off := by
  unfold decodeWrite at h
  repeat' split at h
  all_goals cases h
  · exact .inl ⟨‹width = 32›, ‹off % 4 = 0›⟩
  · exact .inr ⟨‹width = 8›, Nat.not_lt.mp ‹_›⟩
  · exact .inl ⟨‹width = 32›, ‹off % 4 = 0›⟩

/-- The width of a transaction, in bits. -/
def BusAccess.width : BusAccess → Nat
  | .read width _ => width
  | .write width _ _ => width

/-- An admitted transaction lies in the window, and its width is admitted at its offset from BASE (R38, R39). -/
theorem decodeAccess_admitted {base mb : Nat} {t : BusAccess} {x : HostAccess} (h : decodeAccess base mb t = .ok x) :
    (base ≤ t.addr ∧ t.addr < base + MSG_OFFSET + mb) ∧ WidthAdmitted t.width (t.addr - base) := by
  unfold decodeAccess at h
  split at h
  · rename_i hwindow
    refine ⟨of_decide_eq_true hwindow, ?_⟩
    cases t with
    | read width addr => exact widthAdmitted_of_decodeRead h
    | write width addr data => exact widthAdmitted_of_decodeWrite h
  · cases h

theorem busAccess_ok {t : BusAccess} {x : HostAccess} {s : State}
    (h : decodeAccess s.params.base s.params.msgBytes t = .ok x) : busAccess t s = hostAccess x s := by
  simp only [busAccess, h]

theorem busAccess_error {t : BusAccess} {r : Refusal} {s : State}
    (h : decodeAccess s.params.base s.params.msgBytes t = .error r) : busAccess t s = .refused r := by
  simp only [busAccess, h]

/-- A transaction that is no admitted access is refused in any state (R43, R44; log 11). -/
theorem busAccess_refused {t : BusAccess} {s : State}
    (h : ∀ x, decodeAccess s.params.base s.params.msgBytes t ≠ .ok x) : ∃ r, busAccess t s = .refused r := by
  cases hdec : decodeAccess s.params.base s.params.msgBytes t with
  | ok x => exact absurd hdec (h x)
  | error r => exact ⟨r, busAccess_error hdec⟩

/-! ### Word accesses to MSG RAM -/

/-- Bytes just written are read back. -/
theorem Memory.readBytes_writeBytes (m : Memory) (a : Nat) (bs : List Byte) :
    (m.writeBytes a bs).readBytes a bs.length = some bs :=
  Memory.readBytes_eq_some.mpr ⟨rfl, fun i hi => by
    rw [Memory.read_writeBytes_inside m a hi, List.getElem?_eq_getElem hi]⟩

/-- A word written byte by byte, most significant byte first, is read back whole (R42). -/
theorem Memory.readWord_writeBytes (m : Memory) (a : Nat) (w : Word) :
    (m.writeBytes a (unbe32 w)).readWord a = some w := by
  have hbytes : (m.writeBytes a (unbe32 w)).readBytes a 4 = some (unbe32 w) := m.readBytes_writeBytes a (unbe32 w)
  rw [Memory.readWord, hbytes]
  simp only [unbe32, be32_unbe32]

/-- In a canonical memory, writing bytes it already holds changes nothing. -/
theorem Memory.writeBytes_eq_self {m : Memory} {a : Nat} {bs : List Byte} (hwf : m.wf = true)
    (h : ∀ i (hi : i < bs.length), m.read (a + i) = some bs[i]) : m.writeBytes a bs = m := by
  induction bs generalizing a with
  | nil => rfl
  | cons b bs ih =>
    have hfirst : m.read a = some b := h 0 (Nat.succ_pos _)
    have hrest : ∀ i (hi : i < bs.length), m.read (a + 1 + i) = some bs[i] := fun i hi => by
      rw [Nat.add_assoc, Nat.add_comm 1 i]
      exact h (i + 1) (Nat.succ_lt_succ hi)
    rw [Memory.writeBytes, Memory.write_read_eq hwf hfirst, ih hrest]

/-- Writing the same bytes again changes nothing more (R47). -/
theorem Memory.writeBytes_writeBytes {m : Memory} (a : Nat) (bs : List Byte) (hwf : m.wf = true) :
    (m.writeBytes a bs).writeBytes a bs = m.writeBytes a bs :=
  Memory.writeBytes_eq_self (Memory.writeBytes_wf a bs hwf) fun _ hi => Memory.read_writeBytes_inside m a hi

theorem hostAccess_msgReadW_written {s : State} {a : Nat} {w : Word} (hidle : messageInFlight s = false)
    (hw : s.msg.readWord a = some w) : hostAccess (.msgReadW a) s = .next (s, some (.word w)) := by
  simp [hostAccess, hidle, hw]

/-- A word write has a step exactly while no message command is in flight, and stores the word's bytes (R42, R118). -/
theorem hostAccess_msgWriteW_eq_next {s t : State} {a : Nat} {w : Word} {r : Option Response} :
    hostAccess (.msgWriteW a w) s = .next (t, r) ↔
      messageInFlight s = false ∧ t = { s with msg := s.msg.writeBytes a (unbe32 w) } ∧ r = none := by
  cases h : messageInFlight s <;> simp [hostAccess, h, eq_comm]

/-! ### Reads and repeated accesses -/

/-- A read has no side effect (R47). -/
theorem hostAccess_read_keeps {x : HostAccess} {s t : State} {r : Option Response} (hread : Claims.isRead x = true)
    (h : hostAccess x s = .next (t, r)) : t = s := by
  rcases hostAccess_cases h with rfl | ⟨o, w, rfl, -⟩ | ⟨-, ⟨a, b, rfl, -⟩ | ⟨a, w, rfl, -⟩⟩
  · rfl
  · cases hread
  · cases hread
  · cases hread

theorem hostAccess_regWrite_reserved (s : State) {o : Nat} (w : Word) (h : 0x038 ≤ o) :
    hostAccess (.regWrite o w) s = .next (s, none) := by
  simp only [hostAccess, regWrite, ofOffset_reserved h]

/-- Writing a register other than CMD twice is writing it once (R47). -/
theorem writeReg_writeReg {r : Reg} (h : r ≠ .cmd) (w : Word) (s : State) :
    writeReg r w (writeReg r w s) = writeReg r w s := by
  cases r with
  | cmd => exact absurd rfl h
  | _ => rfl

/-- No register stands at two offsets (R15). -/
theorem offset_of_ofOffset {o : Nat} {r : Reg} (h : Reg.ofOffset o = some r) : r.offset = o := by
  unfold Reg.ofOffset at h
  split at h <;> cases h <;> rfl

theorem ofOffset_ne_cmd {o : Nat} {r : Reg} (ho : o ≠ 0) (h : Reg.ofOffset o = some r) : r ≠ .cmd := by
  rintro rfl
  exact ho (offset_of_ofOffset h).symm

theorem regWrite_regWrite {o : Nat} (ho : o ≠ 0) (w : Word) (s : State) :
    regWrite o w (regWrite o w s) = regWrite o w s := by
  cases hr : Reg.ofOffset o with
  | none => simp only [regWrite, hr]
  | some r => simp only [regWrite, hr, writeReg_writeReg (ofOffset_ne_cmd ho hr)]

/-- Repeating an access that is no CMD write gives the same state and the same data (R47). -/
theorem hostAccess_repeat {x : HostAccess} {s t : State} {r : Option Response} (hwf : s.msg.wf = true)
    (hcmd : Claims.isCmdWrite x = false) (h : hostAccess x s = .next (t, r)) : hostAccess x t = .next (t, r) := by
  cases x with
  | regRead o => obtain rfl := hostAccess_read_keeps rfl h; exact h
  | regWrite o w =>
    cases h
    have ho : o ≠ 0 := by simpa [Claims.isCmdWrite] using hcmd
    simp only [hostAccess, regWrite_regWrite ho]
  | msgReadB a => obtain rfl := hostAccess_read_keeps rfl h; exact h
  | msgWriteB a b =>
    obtain ⟨hidle, rfl, rfl⟩ := hostAccess_msgWriteB_eq_next.mp h
    have hsame := Memory.writeBytes_writeBytes a [b] hwf
    exact hostAccess_msgWriteB_eq_next.mpr ⟨hidle, congrArg (fun m => { s with msg := m }) hsame.symm, rfl⟩
  | msgReadW a => obtain rfl := hostAccess_read_keeps rfl h; exact h
  | msgWriteW a w =>
    obtain ⟨hidle, rfl, rfl⟩ := hostAccess_msgWriteW_eq_next.mp h
    have hsame := Memory.writeBytes_writeBytes a (unbe32 w) hwf
    exact hostAccess_msgWriteW_eq_next.mpr ⟨hidle, congrArg (fun m => { s with msg := m }) hsame.symm, rfl⟩

/-! ### The step of a host -/

theorem takeTurn_eq_afterTurn (s : State) : takeTurn s = Claims.afterTurn s := by
  simp only [takeTurn, Claims.afterTurn, List.drop_one]

theorem transaction_eq_lineTransaction (base : Nat) (l : HostLine) :
    l.transaction base = Claims.lineTransaction base l := by
  cases l <;> rfl

/-- A host's step is the transaction of its next line, on the state once the pending turn is taken (R48, R66). -/
theorem step_of_hostLine {s : State} {k : Nat} {h : HostAgent} {l : HostLine} (hk : s.hosts[k]? = some h)
    (hturn : nextTurn s = some (.host k)) (hl : h.program[h.line]? = some l) :
    step s = runLine k h l (Claims.afterTurn s) := by
  rw [← takeTurn_eq_afterTurn]
  simp only [step, systemStep, hturn, runTurn, hostTurn, takeTurn_hosts, hk, HostAgent.nextLine?, hl]

section Line

variable {s : State} {k : Nat} {h : HostAgent} {l : HostLine} {x : HostAccess}

theorem runLine_next {u : State} {r : Option Response}
    (hdec : decodeAccess s.params.base s.params.msgBytes (Claims.lineTransaction s.params.base l) = .ok x)
    (hacc : hostAccess x s = .next (u, r)) :
    runLine k h l s = .next (Claims.hostMoved u k h (l.nextLine h.line r) r) := by
  rw [runLine, transaction_eq_lineTransaction, busAccess_ok hdec, hacc]
  rfl

theorem runLine_fault {f : Fault}
    (hdec : decodeAccess s.params.base s.params.msgBytes (Claims.lineTransaction s.params.base l) = .ok x)
    (hacc : hostAccess x s = .fault f) : runLine k h l s = .fault f := by
  rw [runLine, transaction_eq_lineTransaction, busAccess_ok hdec, hacc]

theorem runLine_refused {r : Refusal}
    (hdec : decodeAccess s.params.base s.params.msgBytes (Claims.lineTransaction s.params.base l) = .error r) :
    runLine k h l s = .refused r := by
  rw [runLine, transaction_eq_lineTransaction, busAccess_error hdec]

end Line

/-! ### The obligations -/

/-- Settles O44: reads keep the state, the read-only registers and reserved offsets ignore writes, and each kind of
access but a CMD write repeats itself. -/
theorem readsAndRepeatsHaveNoSideEffect : Obligations.ReadsAndRepeatsHaveNoSideEffect := by
  unfold Obligations.ReadsAndRepeatsHaveNoSideEffect
  refine ⟨fun x s t r => hostAccess_read_keeps, ?_, fun x s t r hinv => hostAccess_repeat hinv.msg_wf⟩
  rintro s o w (rfl | rfl | rfl | rfl | hreserved)
  · exact hostAccess_regWrite_offset s .status w
  · exact hostAccess_regWrite_offset s .dout0 w
  · exact hostAccess_regWrite_offset s .dout1 w
  · exact hostAccess_regWrite_offset s .dlen w
  · exact hostAccess_regWrite_reserved s w hreserved

/-- Settles O48: the write's step stores the four bytes of the word, which MSG RAM then holds, and touches no other
field. -/
theorem msgWordAccessIsBigEndian : Obligations.MsgWordAccessIsBigEndian := by
  unfold Obligations.MsgWordAccessIsBigEndian
  intro s t a w r h
  obtain ⟨hidle, rfl, -⟩ := hostAccess_msgWriteW_eq_next.mp h
  have hbyte : ∀ i (hi : i < 4), (s.msg.writeBytes a (unbe32 w)).read (a + i) = some ((unbe32 w)[i]'hi) :=
    fun i hi => Memory.read_writeBytes_inside s.msg a hi
  have hreadB := fun c b => hostAccess_msgReadB_written
    (s := { s with msg := s.msg.writeBytes a (unbe32 w) }) (a := c) (b := b) hidle
  have hkept : Claims.bytesKeptOutside a 4 s { s with msg := s.msg.writeBytes a (unbe32 w) } := fun c hc =>
    Memory.read_writeBytes_outside s.msg hc
  exact ⟨hostAccess_msgReadW_written hidle (s.msg.readWord_writeBytes a w), hreadB _ _ (hbyte 0 (by decide)),
    hreadB _ _ (hbyte 1 (by decide)), hreadB _ _ (hbyte 2 (by decide)), hreadB _ _ (hbyte 3 (by decide)), hkept,
    ⟨rfl, rfl, rfl, rfl, rfl, rfl, rfl, rfl, rfl, rfl⟩, ⟨rfl, rfl⟩, rfl, rfl, rfl⟩

/-- Settles O6, from the weights of a word's bytes and the laws that undo BE32, UNBE32 and the split into blocks. -/
theorem byteOrderIsBigEndian : Obligations.ByteOrderIsBigEndian := by
  unfold Obligations.ByteOrderIsBigEndian
  refine ⟨fun b0 b1 b2 b3 => ⟨be32_toNat b0 b1 b2 b3, unbe32_be32 b0 b1 b2 b3⟩,
    fun w => ⟨_, _, _, _, rfl, be32_unbe32 w⟩, fun b => ⟨toBytes_eq_blockBytes b, ?_⟩⟩
  rw [← toBytes_eq_blockBytes]
  exact blocksOf_toBytes b []

/-- Settles O52: each row of R39 lies in the window, and its offset and width select its access. -/
theorem admittedAccessesDecode : Obligations.AdmittedAccessesDecode := by
  unfold Obligations.AdmittedAccessesDecode
  intro s o a data
  rw [Nat.add_assoc, show (0x1000 : Nat) = MSG_OFFSET from rfl]
  refine ⟨fun ho h4 => ⟨decodeAccess_regRead _ _ ho h4, ?_⟩, fun ha => ?_, fun ha h4 => ?_⟩
  · have hreg : o < MSG_OFFSET := Nat.lt_of_le_of_lt ho (by decide)
    rw [decodeAccess_write _ _ _ (Nat.lt_add_right _ hreg), decodeWrite_register _ _ hreg h4]
  · have hin : MSG_OFFSET + a < MSG_OFFSET + s.params.msgBytes := Nat.add_lt_add_left ha _
    rw [decodeAccess_read _ _ hin, decodeAccess_write _ _ _ hin]
    exact ⟨decodeRead_msgByte _ a, decodeWrite_msgByte _ a data⟩
  · have hin : MSG_OFFSET + a < MSG_OFFSET + s.params.msgBytes := by omega
    rw [decodeAccess_read _ _ hin, decodeAccess_write _ _ _ hin]
    exact ⟨decodeRead_msgWord ha h4, decodeWrite_msgWord data ha h4⟩

/-- Settles O53: an admitted transaction lies in the window and has an admitted width and alignment, and BASE is a
multiple of 4. -/
theorem otherAccessesAreRefused : Obligations.OtherAccessesAreRefused := by
  unfold Obligations.OtherAccessesAreRefused
  intro s t width addr hlegal ht hbad
  obtain ⟨hbase, -⟩ := Params.legal_iff.mp hlegal
  refine busAccess_refused fun x hx => ?_
  obtain ⟨hwindow, hwidth⟩ := decodeAccess_admitted hx
  have htw : t.width = width ∧ t.addr = addr := by
    rcases ht with rfl | ⟨data, rfl⟩ <;> exact ⟨rfl, rfl⟩
  rw [htw.1, htw.2] at hwidth
  rw [htw.2] at hwindow
  simp only [WidthAdmitted, MSG_OFFSET] at hwidth hwindow
  omega

/-- Settles O55: the step is the run of the host's next line, by what its transaction decodes to and what the access
answers. -/
theorem stepRunsTheHostsLine : Obligations.StepRunsTheHostsLine := by
  unfold Obligations.StepRunsTheHostsLine
  intro s k h hk hturn
  have hrun := fun l => step_of_hostLine (l := l) hk hturn
  refine ⟨?bus, ?bbsRegister, ?bbs, ?fault, ?refused⟩
  case bus =>
    intro t x u r hl hdec hacc
    rw [hrun _ hl]
    exact runLine_next (s := Claims.afterTurn s) (l := .bus t) hdec hacc
  case bbsRegister =>
    intro o bit target w hl ho h4 hacc
    rw [hrun _ hl]
    exact runLine_next (s := Claims.afterTurn s) (l := .bbs o bit target) (decodeAccess_regRead _ _ ho h4) hacc
  case bbs =>
    intro o bit target x u w hl hdec hacc
    rw [hrun _ hl]
    exact runLine_next (s := Claims.afterTurn s) (l := .bbs o bit target) hdec hacc
  case fault =>
    intro l x f hl hdec hacc
    rw [hrun l hl]
    exact runLine_fault (s := Claims.afterTurn s) hdec hacc
  case refused =>
    intro l r hl hdec
    rw [hrun l hl]
    exact runLine_refused (s := Claims.afterTurn s) hdec

end Sys2Proof.Machine

end

/-! Proofs of the statements of 30_encoding.md: the command word (R53 to R55), issue and overrun (R56, R57), the perform
step, what it reads and how it completes (R58 to R60), and `poll` (R64, R65). -/

section

namespace Sys2Proof.Machine

/-! ### The command word -/

theorem decode_encode (i : Instr) : decode (encode i) = .ok i := by
  have hword : Laws.CommandWord.Statement i := by
    cases i with
    | encb => exact Laws.CommandWord.encb
    | decb => exact Laws.CommandWord.decb
    | menc => exact Laws.CommandWord.menc
    | mdec => exact Laws.CommandWord.mdec
  obtain ⟨-, -, -, hdec⟩ := hword
  exact hdec

theorem decode_eq_ok_iff {w : Word} {i : Instr} : decode w = .ok i ↔ w = encode i :=
  ⟨eq_encode_of_decode, fun h => h ▸ decode_encode i⟩

/-- The words of the opcode map are 1 to 4 (R54). -/
theorem exists_eq_encode_iff {w : Word} : (∃ i, w = encode i) ↔ 1 ≤ w.toNat ∧ w.toNat ≤ 4 := by
  constructor
  · rintro ⟨i, rfl⟩
    cases i <;> decide
  · rintro ⟨hpos, hle⟩
    have hcases : w.toNat = 1 ∨ w.toNat = 2 ∨ w.toNat = 3 ∨ w.toNat = 4 := by omega
    rcases hcases with h | h | h | h
    · exact ⟨.encb, BitVec.eq_of_toNat_eq h⟩
    · exact ⟨.decb, BitVec.eq_of_toNat_eq h⟩
    · exact ⟨.menc, BitVec.eq_of_toNat_eq h⟩
    · exact ⟨.mdec, BitVec.eq_of_toNat_eq h⟩

/-- The decoder is total: a word is illegal exactly when it is no command's word (R55). -/
theorem exists_decode_eq_error_iff {w : Word} : (∃ e, decode w = .error e) ↔ ¬ ∃ i, w = encode i := by
  simp only [← decode_eq_ok_iff]
  cases decode w <;> simp

/-- The illegal words, as numbers (R54, R55). -/
theorem exists_decode_eq_error_iff_toNat {w : Word} :
    (∃ e, decode w = .error e) ↔ w.toNat = 0 ∨ 5 ≤ w.toNat := by
  rw [exists_decode_eq_error_iff, exists_eq_encode_iff]
  omega

/-! ### Issue -/

/-- A write to CMD, at offset 0x000, is `writeCmd` (R16). -/
theorem hostAccess_regWrite_cmd (s : State) (w : Word) :
    hostAccess (.regWrite 0x000 w) s = .next (writeCmd w s, none) :=
  hostAccess_regWrite_offset s .cmd w

/-! ### The engine's step -/

theorem perform_of_decode_ok {s : State} {i : Instr} (h : decode s.latches.lop = .ok i) : perform s = exec i s := by
  simp only [perform, h]

theorem perform_of_decode_error {s : State} {e : DecodeError} (h : decode s.latches.lop = .error e) :
    perform s = .next (raise .badCommand s) := by
  simp only [perform, h]

theorem nextTurn_of_engineNext {s : State} (h : Claims.engineNext s) : nextTurn s = some .engine := by
  obtain ⟨hbusy, hturns | ⟨ts, hturns⟩⟩ := h
  · simp [nextTurn, hturns, hbusy]
  · simp [nextTurn, hturns]

/-- When the engine moves and BUSY = 1, the step is the perform step, once the pending turn is taken (R58). -/
theorem step_of_engineNext {s : State} (h : Claims.engineNext s) : step s = perform (Claims.afterTurn s) := by
  have hbusy : (takeTurn s).status.busy = true := h.1
  rw [← takeTurn_eq_afterTurn]
  simp only [step, systemStep, nextTurn_of_engineNext h, runTurn, engineTurn, hbusy, if_true]

/-! ### How a command completes -/

theorem CommandEffect.operandsKept {s t : State} (h : CommandEffect s t) : Claims.operandsKept s t :=
  ⟨h.cmd, h.key, h.din0, h.din1, h.src, h.slen, h.dst, h.params, h.hosts, h.turns⟩

theorem raise_operandsKept (e : ErrorCode) (s : State) : Claims.operandsKept s (raise e s) :=
  ⟨raise_cmd e s, raise_key e s, raise_din0 e s, raise_din1 e s, raise_src e s, raise_slen e s, raise_dst e s,
    raise_params e s, raise_hosts e s, raise_turns e s⟩

theorem raise_failedWith (e : ErrorCode) (s : State) : Claims.failedWith e.code s (raise e s) := by
  simp [Claims.failedWith]

/-- MDEC after MemRead completes, and BAD_COMMAND is none of its errors (R88 to R93). -/
theorem mdecStore_completed (c : List Byte) (s : State) :
    ∃ o, (mdecStore c s).status = s.status.completed o ∧ o ≠ some .invalidKeyLength ∧ o ≠ some .badCommand := by
  rcases mdecStore_cases c s with ⟨-, h⟩ | ⟨p, n, -, -, h⟩ | ⟨p, n, -, -, h⟩ <;> rw [h]
  · exact ⟨_, raise_status _ s, by decide, by decide⟩
  · exact ⟨_, raise_status _ s, by decide, by decide⟩
  · exact ⟨none, rfl, by decide, by decide⟩

/-- A command completes, and neither INVALID_KEY_LENGTH, which nothing raises, nor BAD_COMMAND, an illegal word's error,
is one of its errors (R55, R59, R98). -/
theorem exec_completed {i : Instr} {s t : State} (h : exec i s = .next t) :
    ∃ o, t.status = s.status.completed o ∧ o ≠ some .invalidKeyLength ∧ o ≠ some .badCommand := by
  cases i with
  | encb => cases h; exact ⟨none, rfl, by decide, by decide⟩
  | decb => cases h; exact ⟨none, rfl, by decide, by decide⟩
  | menc =>
    simp only [exec, execMenc] at h
    rcases mencWith_cases (Config.rngByte s.draws) s with
      ⟨-, h'⟩ | ⟨-, -, h'⟩ | ⟨-, p, -, h'⟩ <;> rw [h'] at h <;> cases h
    · exact ⟨_, raise_status _ s, by decide, by decide⟩
    · exact ⟨none, rfl, by decide, by decide⟩
  | mdec =>
    simp only [exec] at h
    rcases execMdec_cases s with
      ⟨-, h'⟩ | ⟨-, -, h'⟩ | ⟨-, -, -, h'⟩ | ⟨-, -, c, -, h'⟩ <;> rw [h'] at h <;> cases h
    · exact ⟨_, raise_status _ s, by decide, by decide⟩
    · exact ⟨_, raise_status _ s, by decide, by decide⟩
    · exact mdecStore_completed c s

/-- The codes left when neither INVALID_KEY_LENGTH nor BAD_COMMAND is raised (R98). -/
theorem ecodeOf_of_command {o : Option ErrorCode} (hkey : o ≠ some .invalidKeyLength) (hbad : o ≠ some .badCommand) :
    ecodeOf o = 0 ∨ ecodeOf o = 2 ∨ ecodeOf o = 3 ∨ ecodeOf o = 5 := by
  cases o with
  | none => exact .inl rfl
  | some e =>
    cases e with
    | invalidKeyLength => exact absurd rfl hkey
    | badCommand => exact absurd rfl hbad
    | invalidLength => exact .inr (.inl rfl)
    | integrityCheckFailed => exact .inr (.inr (.inl rfl))
    | rangeError => exact .inr (.inr (.inr rfl))

/-! ### MENC's and MDEC's answers, by what their checks found -/

theorem mencWith_rangeError (rnd : Draw) {s : State} (hr : mencRangesOk s.params.msgBytes s.latches = false) :
    mencWith rnd s = .next (raise .rangeError s) := by
  simp [mencWith, hr]

theorem mencWith_unwritten (rnd : Draw) {s : State} (hr : mencRangesOk s.params.msgBytes s.latches = true)
    (hb : s.msg.readBytes s.latches.srcAt s.latches.len = none) : mencWith rnd s = .fault .engineReadUnwritten := by
  simp [mencWith, hr, hb]

theorem mencWith_success (rnd : Draw) {s : State} {p : List Byte}
    (hr : mencRangesOk s.params.msgBytes s.latches = true)
    (hb : s.msg.readBytes s.latches.srcAt s.latches.len = some p) : mencWith rnd s = .next (mencResult rnd p s) := by
  simp [mencWith, hr, hb, mencResult]

theorem execMdec_invalidLength {s : State} (hl : lengthInvalid s.latches.len = true) :
    execMdec s = .next (raise .invalidLength s) := by
  simp [execMdec, hl]

theorem execMdec_rangeError {s : State} (hl : lengthInvalid s.latches.len = false)
    (hr : inRange s.params.msgBytes s.latches.srcAt s.latches.len = false) :
    execMdec s = .next (raise .rangeError s) := by
  simp [execMdec, hl, hr]

theorem execMdec_unwritten {s : State} (hl : lengthInvalid s.latches.len = false)
    (hr : inRange s.params.msgBytes s.latches.srcAt s.latches.len = true)
    (hb : s.msg.readBytes s.latches.srcAt s.latches.len = none) : execMdec s = .fault .engineReadUnwritten := by
  simp [execMdec, hl, hr, hb]

theorem execMdec_decodes {s : State} {c : List Byte} (hl : lengthInvalid s.latches.len = false)
    (hr : inRange s.params.msgBytes s.latches.srcAt s.latches.len = true)
    (hb : s.msg.readBytes s.latches.srcAt s.latches.len = some c) : execMdec s = .next (mdecStore c s) := by
  simp [execMdec, hl, hr, hb]

theorem mdecStore_codecError {s : State} {c : List Byte} {e : ErrorCode}
    (hc : codecDec s.latches.lk c = .error e) : mdecStore c s = raise e s := by
  simp [mdecStore, hc]

theorem mdecStore_rangeError {s : State} {c p : List Byte} {n : Nat} (hc : codecDec s.latches.lk c = .ok (p, n))
    (hd : mdecDestOk s.params.msgBytes s.latches n = false) : mdecStore c s = raise .rangeError s := by
  simp [mdecStore, hc, hd]

theorem mdecStore_success {s : State} {c p : List Byte} {n : Nat} (hc : codecDec s.latches.lk c = .ok (p, n))
    (hd : mdecDestOk s.params.msgBytes s.latches n = true) : mdecStore c s = complete none (storeMessage p n s) := by
  simp [mdecStore, hc, hd]

/-! ### What a perform step reads -/

section Inputs

variable {s s' : State} {block message : Prop}

/-- The block commands' results: only DOUT is one (R60). -/
theorem sameResults_writeDout (b : Block) (h : Claims.samePerformInputs s s') (hblock : block) (hmessage : ¬ message) :
    Claims.sameResults block message s s' (complete none (writeDout b s)) (complete none (writeDout b s')) := by
  obtain ⟨-, hmsg, hdraws, -⟩ := h
  have hkept : ∀ u, Claims.operandsKept u (complete none (writeDout b u)) := fun _ =>
    ⟨rfl, rfl, rfl, rfl, rfl, rfl, rfl, rfl, rfl, rfl⟩
  exact ⟨hmsg, hdraws, rfl, rfl, fun _ => ⟨rfl, rfl⟩, absurd hblock, fun hm => absurd hm hmessage,
    fun _ => ⟨rfl, rfl⟩, hkept s, hkept s', congrArg Latches.unspecified⟩

/-- A message command's results on success: MSG RAM, DLEN and, for MENC, one request more (R60). -/
theorem sameResults_storeMessage (p : List Byte) (n : Nat) {d d' : Nat} (h : Claims.samePerformInputs s s')
    (hd : d' = d) (hblock : ¬ block) (hmessage : message) :
    Claims.sameResults block message s s' (complete none { storeMessage p n s with draws := d })
      (complete none { storeMessage p n s' with draws := d' }) := by
  obtain ⟨hlatches, hmsg, -, -⟩ := h
  have hstored : s'.msg.writeBytes s'.latches.dstAt p = s.msg.writeBytes s.latches.dstAt p := by rw [hmsg, hlatches]
  have hkept : ∀ u d, Claims.operandsKept u (complete none { storeMessage p n u with draws := d }) := fun _ _ =>
    ⟨rfl, rfl, rfl, rfl, rfl, rfl, rfl, rfl, rfl, rfl⟩
  exact ⟨hstored, hd, rfl, rfl, fun hb => absurd hb hblock, fun _ => ⟨⟨rfl, rfl⟩, ⟨rfl, rfl⟩⟩, fun _ => rfl,
    absurd hmessage, hkept s d, hkept s' d', congrArg Latches.unspecified⟩

/-- An error's results: it writes DLEN exactly when it is a message command's (R102). -/
theorem sameResults_raise {e : ErrorCode} (h : Claims.samePerformInputs s s') (hblock : ¬ block)
    (hmessage : message ↔ e ≠ .badCommand) :
    Claims.sameResults block message s s' (raise e s) (raise e s') := by
  obtain ⟨-, hmsg, hdraws, -⟩ := h
  refine ⟨by simp [hmsg], by simp [hdraws], by simp [Status.completed], by simp, fun hb => absurd hb hblock,
    fun _ => ⟨raise_doutKept e s, raise_doutKept e s'⟩, ?_, ?_, raise_operandsKept e s, raise_operandsKept e s',
    fun hcount => by simp [hcount]⟩
  · intro hm
    rw [raise_dlen e s (hmessage.mp hm), raise_dlen e s' (hmessage.mp hm)]
  · intro hm
    obtain rfl : e = .badCommand := not_not.mp fun he => hm (hmessage.mpr he)
    exact ⟨raise_badCommand_dlen s, raise_badCommand_dlen s'⟩

theorem execMenc_sameOutcome (h : Claims.samePerformInputs s s') (hblock : ¬ block) (hmessage : message) :
    Claims.sameOutcome block message s s' (execMenc s) (execMenc s') := by
  obtain ⟨hlatches, hmsg, hdraws, hparams⟩ := id h
  have hcases := mencWith_cases (Config.rngByte s.draws) s
  rw [← hparams, ← hmsg, ← hlatches] at hcases
  rw [execMenc, execMenc, hdraws]
  rcases hcases with ⟨hr, hs⟩ | ⟨hr, hb, hs⟩ | ⟨hr, p, hb, hs⟩ <;> rw [hs]
  · exact ⟨_, mencWith_rangeError _ hr, sameResults_raise h hblock (iff_of_true hmessage (by decide))⟩
  · exact mencWith_unwritten _ hr hb
  · refine ⟨_, mencWith_success _ hr hb, ?_⟩
    rw [mencResult, mencResult, hlatches]
    exact sameResults_storeMessage _ _ h (congrArg (· + 1) hdraws) hblock hmessage

theorem mdecStore_sameResults (c : List Byte) (h : Claims.samePerformInputs s s') (hblock : ¬ block)
    (hmessage : message) : Claims.sameResults block message s s' (mdecStore c s) (mdecStore c s') := by
  obtain ⟨hlatches, -, hdraws, hparams⟩ := id h
  have hcases := mdecStore_cases c s
  rw [← hparams, ← hlatches] at hcases
  rcases hcases with ⟨hc, hs⟩ | ⟨p, n, hc, hd, hs⟩ | ⟨p, n, hc, hd, hs⟩ <;> rw [hs]
  · rw [mdecStore_codecError hc]
    exact sameResults_raise h hblock (iff_of_true hmessage (by decide))
  · rw [mdecStore_rangeError hc hd]
    exact sameResults_raise h hblock (iff_of_true hmessage (by decide))
  · rw [mdecStore_success hc hd]
    exact sameResults_storeMessage p n h hdraws hblock hmessage

theorem execMdec_sameOutcome (h : Claims.samePerformInputs s s') (hblock : ¬ block) (hmessage : message) :
    Claims.sameOutcome block message s s' (execMdec s) (execMdec s') := by
  obtain ⟨hlatches, hmsg, -, hparams⟩ := id h
  have hcases := execMdec_cases s
  rw [← hparams, ← hmsg, ← hlatches] at hcases
  rcases hcases with ⟨hl, hs⟩ | ⟨hl, hr, hs⟩ | ⟨hl, hr, hb, hs⟩ | ⟨hl, hr, c, hb, hs⟩ <;> rw [hs]
  · exact ⟨_, execMdec_invalidLength hl, sameResults_raise h hblock (iff_of_true hmessage (by decide))⟩
  · exact ⟨_, execMdec_rangeError hl hr, sameResults_raise h hblock (iff_of_true hmessage (by decide))⟩
  · exact execMdec_unwritten hl hr hb
  · exact ⟨_, execMdec_decodes hl hr hb, mdecStore_sameResults c h hblock hmessage⟩

theorem exec_sameOutcome (i : Instr) (h : Claims.samePerformInputs s s') :
    Claims.sameOutcome (i = .encb ∨ i = .decb) (i = .menc ∨ i = .mdec) s s' (exec i s) (exec i s') := by
  have hlatches : s'.latches = s.latches := h.1
  cases i with
  | encb =>
    rw [exec_encb, exec_encb, hlatches]
    exact ⟨_, rfl, sameResults_writeDout _ h (by decide) (by decide)⟩
  | decb =>
    rw [exec_decb, exec_decb, hlatches]
    exact ⟨_, rfl, sameResults_writeDout _ h (by decide) (by decide)⟩
  | menc => exact execMenc_sameOutcome h (by decide) (by decide)
  | mdec => exact execMdec_sameOutcome h (by decide) (by decide)

end Inputs

/-- Which words in LOP are a block command's, by name and by number (R54). -/
theorem blockCommand_iff (i : Instr) :
    (i = .encb ∨ i = .decb) ↔ (encode i = 0x00000001 ∨ encode i = 0x00000002) := by
  cases i <;> decide

/-- Which words in LOP are a message command's, by name and by number (R54). -/
theorem messageCommand_iff (i : Instr) :
    (i = .menc ∨ i = .mdec) ↔ (encode i = 0x00000003 ∨ encode i = 0x00000004) := by
  cases i <;> decide

/-- The perform step reads nothing but its inputs, with a command or with an illegal word in LOP. -/
theorem perform_sameOutcome {s s' : State} (h : Claims.samePerformInputs s s') :
    Claims.sameOutcome (s.latches.lop = 0x00000001 ∨ s.latches.lop = 0x00000002)
      (s.latches.lop = 0x00000003 ∨ s.latches.lop = 0x00000004) s s' (perform s) (perform s') := by
  have hlop : s'.latches.lop = s.latches.lop := congrArg Latches.lop h.1
  cases hdec : decode s.latches.lop with
  | ok i =>
    have hexec := exec_sameOutcome i h
    rw [blockCommand_iff, messageCommand_iff, ← eq_encode_of_decode hdec] at hexec
    rw [perform_of_decode_ok hdec, perform_of_decode_ok (hlop.symm ▸ hdec)]
    exact hexec
  | error e =>
    have hillegal : ∀ i, s.latches.lop ≠ encode i :=
      not_exists.mp (exists_decode_eq_error_iff.mp ⟨e, hdec⟩)
    rw [perform_of_decode_error hdec, perform_of_decode_error (hlop.symm ▸ hdec)]
    refine ⟨_, rfl, sameResults_raise h ?_ (iff_of_false ?_ (not_not.mpr rfl))⟩
    · exact not_or.mpr ⟨hillegal .encb, hillegal .decb⟩
    · exact not_or.mpr ⟨hillegal .menc, hillegal .mdec⟩

/-! ### The obligations -/

/-- Settles O31: each command's checks and results are functions of the inputs that the two states share, and
BAD_COMMAND reads none. -/
theorem performReadsOnlyTheLatches : Obligations.PerformReadsOnlyTheLatches := by
  unfold Obligations.PerformReadsOnlyTheLatches
  intro s s' h
  exact ⟨fun i => exec_sameOutcome i h, perform_sameOutcome h⟩

/-- Settles O32, from what a command's effect keeps and from the outcomes it can complete with. -/
theorem commandsThatStepHaveCompleted : Obligations.CommandsThatStepHaveCompleted := by
  unfold Obligations.CommandsThatStepHaveCompleted
  refine fun i s => ⟨exec_ne_refused i s, fun t h => ?_⟩
  obtain ⟨o, hstatus, hkey, hbad⟩ := exec_completed h
  rw [hstatus]
  exact ⟨rfl, rfl, rfl, isSome_iff_ecodeOf_ne_zero o, ecodeOf_of_command hkey hbad, (exec_effect h).operandsKept⟩

/-- Settles O34: the decoder answers a command on its word alone, and the four words are 1 to 4. -/
theorem decodeOkIffEncoded : Obligations.DecodeOkIffEncoded := by
  unfold Obligations.DecodeOkIffEncoded
  exact ⟨fun w i => decode_eq_ok_iff, fun w => exists_decode_eq_error_iff_toNat⟩

/-- Settles O35: the four words are the encoder's, and the decoder runs on the five illegal ones. -/
theorem commandWordsDecode : Obligations.CommandWordsDecode := by
  unfold Obligations.CommandWordsDecode
  exact ⟨decode_encode .encb, decode_encode .decb, decode_encode .menc, decode_encode .mdec, by decide, by decide,
    by decide, by decide, by decide⟩

/-- Settles O36: the engine's step is the perform step, which runs what LOP decodes to. -/
theorem stepRunsTheDecodedCommand : Obligations.StepRunsTheDecodedCommand := by
  unfold Obligations.StepRunsTheDecodedCommand
  intro s i hengine hdec
  rw [step_of_engineNext hengine]
  exact perform_of_decode_ok (s := Claims.afterTurn s) hdec

/-- Settles O37: the engine's step is the perform step, which raises BAD_COMMAND on an illegal word. -/
theorem stepOfAnIllegalWordIsBadCommand : Obligations.StepOfAnIllegalWordIsBadCommand := by
  unfold Obligations.StepOfAnIllegalWordIsBadCommand
  intro s hengine hillegal
  obtain ⟨e, hdec⟩ := exists_decode_eq_error_iff_toNat.mpr hillegal
  refine ⟨raise .badCommand (Claims.afterTurn s), ?_, raise_failedWith .badCommand (Claims.afterTurn s),
    raise_operandsKept .badCommand _, raise_doutKept .badCommand (Claims.afterTurn s), rfl, rfl, rfl⟩
  rw [step_of_engineNext hengine]
  exact perform_of_decode_error (s := Claims.afterTurn s) hdec

/-- Settles O38: while idle the write issues the word, and issue changes CMD, the latches and STATUS alone. -/
theorem cmdWriteWhileIdleIssues : Obligations.CmdWriteWhileIdleIssues := by
  unfold Obligations.CmdWriteWhileIdleIssues
  intro s w hidle
  refine ⟨issue w s, ?_, issue_cmd w s, issue_latches w s, issue_status w s, rfl, rfl, rfl, rfl, rfl, rfl, ⟨rfl, rfl⟩,
    rfl, rfl, rfl, rfl, rfl, rfl⟩
  rw [hostAccess_regWrite_cmd, writeCmd_idle w hidle]

/-- Settles O39: while busy the write is an overrun. -/
theorem cmdWriteWhileBusySetsOvr : Obligations.CmdWriteWhileBusySetsOvr := by
  unfold Obligations.CmdWriteWhileBusySetsOvr
  intro s w hbusy
  rw [hostAccess_regWrite_cmd, writeCmd_busy w hbusy, Status.overrun]

/-- Settles O54: `poll` is a `bbs` on bit 0 of STATUS, which is BUSY. -/
theorem pollWaitsForCompletion : Obligations.PollWaitsForCompletion := by
  unfold Obligations.PollWaitsForCompletion
  intro s k h hk hl hturn
  obtain ⟨-, hbbs, -⟩ := stepRunsTheHostsLine s k h hk hturn
  obtain ⟨hbit, -⟩ := s.status.toWord_flags
  have hread := hostAccess_regRead_offset (Claims.afterTurn s) .status
  rw [hbbs _ 0 h.line s.status.toWord hl (by decide) (by decide) hread, hbit]

end Sys2Proof.Machine

end

/-! Proofs of the statements of 40_block_engine.md: TEA_Enc and TEA_Dec as cycles (R67 to R70), their being inverse
(R71), the known-vector fixture (R78), and the block commands ENCB and DECB (R73, R74). -/

section

namespace Sys2Proof.Machine

/-! ### Words that follow the recurrence of a cycle -/

section Recurrence

variable {k : Key} {n : Nat} {sum v0 v1 : Nat → Word}

/-- Words that follow the recurrence of R69 are the working states of encryption, cycle by cycle. -/
theorem encCycles_of_recurrence (h : ∀ i, i < n → sum (i + 1) = sum i + DELTA ∧
      v0 (i + 1) = v0 i + roundF (v1 i) k.k0 k.k1 (sum (i + 1)) ∧
      v1 (i + 1) = v1 i + roundF (v0 (i + 1)) k.k2 k.k3 (sum (i + 1))) :
    encCycles k n { sum := sum 0, v0 := v0 0, v1 := v1 0 } = { sum := sum n, v0 := v0 n, v1 := v1 n } := by
  induction n with
  | zero => rfl
  | succ n ih =>
    obtain ⟨hsum, hv0, hv1⟩ := h n n.lt_succ_self
    rw [BitVec.add_comm] at hsum
    rw [encCycles_succ, ih fun i hi => h i (Nat.lt_succ_of_lt hi), encCycle, ← hsum, ← hv0, ← hv1]

/-- Words that follow the recurrence of R70 are the working states of decryption, cycle by cycle. -/
theorem decCycles_of_recurrence (h : ∀ i, i < n → v1 (i + 1) = v1 i - roundF (v0 i) k.k2 k.k3 (sum i) ∧
      v0 (i + 1) = v0 i - roundF (v1 (i + 1)) k.k0 k.k1 (sum i) ∧ sum (i + 1) = sum i - DELTA) :
    decCycles k n { sum := sum 0, v0 := v0 0, v1 := v1 0 } = { sum := sum n, v0 := v0 n, v1 := v1 n } := by
  induction n with
  | zero => rfl
  | succ n ih =>
    obtain ⟨hv1, hv0, hsum⟩ := h n n.lt_succ_self
    rw [decCycles_succ, ih fun i hi => h i (Nat.lt_succ_of_lt hi), decCycle, ← hv1, ← hv0, ← hsum]

end Recurrence

/-! ### The sums of the cycles -/

/-- sum_i, the i-th multiple of DELTA (R67). -/
def cycleSum (i : Nat) : Word := BitVec.ofNat 32 (i * 0x9E3779B9)

theorem cycleSum_succ (i : Nat) : cycleSum (i + 1) = cycleSum i + DELTA := by
  rw [cycleSum, Nat.succ_mul, BitVec.ofNat_add]
  rfl

/-- The sums of decryption, sum_32 first, fall by DELTA (R70). -/
theorem cycleSum_reversed_succ {i : Nat} (h : i < 32) : cycleSum (32 - (i + 1)) = cycleSum (32 - i) - DELTA := by
  obtain ⟨m, hm⟩ : ∃ m, 32 - i = m + 1 := ⟨31 - i, by omega⟩
  have hm' : 32 - (i + 1) = m := by omega
  rw [hm, hm', cycleSum_succ, BitVec.add_sub_cancel]

theorem cycles_mul_delta : BitVec.ofNat 32 CYCLES * DELTA = DSUM0 := by decide

/-! ### TEA_Enc and TEA_Dec are inverse -/

/-- Encryption ends at the sum from which decryption starts, sum_32 (R70). -/
theorem encCycles_end (k : Key) (b : Block) : encCycles k CYCLES { sum := 0, v0 := b.v0, v1 := b.v1 } =
    { sum := DSUM0, v0 := (teaEnc k b).v0, v1 := (teaEnc k b).v1 } := by
  have hsum : (encCycles k CYCLES { sum := 0, v0 := b.v0, v1 := b.v1 }).sum = DSUM0 := by
    rw [encCycles_sum, cycles_mul_delta]
    exact BitVec.zero_add DSUM0
  rw [← hsum]
  rfl

/-- Decryption ends at the sum from which encryption starts, 0 (R70). -/
theorem decCycles_end (k : Key) (b : Block) : decCycles k CYCLES { sum := DSUM0, v0 := b.v0, v1 := b.v1 } =
    { sum := 0, v0 := (teaDec k b).v0, v1 := (teaDec k b).v1 } := by
  have hsum : (decCycles k CYCLES { sum := DSUM0, v0 := b.v0, v1 := b.v1 }).sum = 0 := by
    rw [decCycles_sum, cycles_mul_delta]
    exact BitVec.sub_self DSUM0
  rw [← hsum]
  rfl

theorem teaDec_teaEnc (k : Key) (b : Block) : teaDec k (teaEnc k b) = b := by
  rw [teaDec, ← encCycles_end, decCycles_encCycles, TeaWork.block]

theorem teaEnc_teaDec (k : Key) (b : Block) : teaEnc k (teaDec k b) = b := by
  rw [teaEnc, ← decCycles_end, encCycles_decCycles, TeaWork.block]

/-- The known vector of R78, as words. -/
theorem teaEnc_zero : teaEnc { k0 := 0, k1 := 0, k2 := 0, k3 := 0 } { v0 := 0, v1 := 0 } =
    { v0 := 0x41EA3A0A, v1 := 0x94BAA940 } := by
  decide +kernel

/-! ### The block commands -/

/-- A command that writes a block to DOUT and completes with success changes no other register, and neither MSG RAM
nor the random source. -/
theorem exec_writeDout {i : Instr} {s : State} {b : Block}
    (h : exec i s = .next (complete none (writeDout b s))) :
    ∃ t, exec i s = .next t ∧ ({ v0 := t.dout0, v1 := t.dout1 } : Block) = b ∧ Claims.succeeded s t ∧
      Claims.operandsKept s t ∧ t.dlen = s.dlen ∧ t.msg = s.msg ∧ t.draws = s.draws :=
  ⟨_, h, rfl, ⟨rfl, rfl, rfl, rfl, rfl⟩, (exec_effect h).operandsKept, rfl, rfl, rfl⟩

theorem dout_of_exec_encb {s t : State} (h : exec .encb s = .next t) :
    ({ v0 := t.dout0, v1 := t.dout1 } : Block) = teaEnc s.latches.lk s.latches.block := by
  rw [exec_encb] at h
  cases h
  rfl

theorem dout_of_exec_decb {s t : State} (h : exec .decb s = .next t) :
    ({ v0 := t.dout0, v1 := t.dout1 } : Block) = teaDec s.latches.lk s.latches.block := by
  rw [exec_decb] at h
  cases h
  rfl

/-! ### The obligations -/

/-- Settles O1: the words of the recurrence are the working states of encryption. -/
theorem teaEncFollowsItsCycles : Obligations.TeaEncFollowsItsCycles := by
  unfold Obligations.TeaEncFollowsItsCycles
  intro k sum v0 v1 hstart hcycle
  have hrun := encCycles_of_recurrence hcycle
  rw [hstart] at hrun
  exact congrArg TeaWork.block hrun

/-- Settles O2: the words of the recurrence are the working states of decryption, which ends at sum 0. -/
theorem teaDecFollowsItsCycles : Obligations.TeaDecFollowsItsCycles := by
  unfold Obligations.TeaDecFollowsItsCycles
  refine ⟨by decide, fun k sum v0 v1 hstart hcycle => ?_⟩
  have hrun := decCycles_of_recurrence hcycle
  rw [hstart] at hrun
  have hend := decCycles_end k { v0 := v0 0, v1 := v1 0 }
  exact ⟨congrArg TeaWork.block hrun, congrArg TeaWork.sum (hrun.symm.trans hend)⟩

/-- Settles O3, from O1 and O2: the multiples of DELTA, rising or falling, are sums that follow the recurrence. -/
theorem keyScheduleIsMultiplesOfDelta : Obligations.KeyScheduleIsMultiplesOfDelta := by
  unfold Obligations.KeyScheduleIsMultiplesOfDelta
  refine fun k v0 v1 => ⟨fun henc => ?_, fun hdec => ?_⟩
  · refine teaEncFollowsItsCycles k cycleSum v0 v1 (by decide) fun i hi => ?_
    exact ⟨cycleSum_succ i, henc (i + 1) (Nat.succ_pos i) hi⟩
  · refine (teaDecFollowsItsCycles.2 k (fun i => cycleSum (32 - i)) v0 v1 (by decide) fun i hi => ?_).1
    have hcycle := hdec (i + 1) (Nat.succ_pos i) hi
    rw [Nat.add_sub_add_right 32 1 i] at hcycle
    exact ⟨hcycle.1, hcycle.2, cycleSum_reversed_succ hi⟩

/-- Settles O4: the cycles of each function undo the other's, and a function with an inverse is a bijection. -/
theorem teaEncAndDecAreInverse : Obligations.TeaEncAndDecAreInverse := by
  unfold Obligations.TeaEncAndDecAreInverse
  refine fun k => ⟨teaDec_teaEnc k, teaEnc_teaDec k, ?_, ?_⟩
  · exact Function.bijective_iff_has_inverse.mpr ⟨teaDec k, teaDec_teaEnc k, teaEnc_teaDec k⟩
  · exact Function.bijective_iff_has_inverse.mpr ⟨teaEnc k, teaEnc_teaDec k, teaDec_teaEnc k⟩

/-- Settles O5: the model runs the fixture, and the bytes are those of the two words. -/
theorem knownVectorFixture : Obligations.KnownVectorFixture := by
  unfold Obligations.KnownVectorFixture
  rw [teaEnc_zero]
  decide

/-- Settles O8: ENCB's answer is a block written to DOUT and a success. -/
theorem encbEncryptsTheLatchedBlock : Obligations.EncbEncryptsTheLatchedBlock := by
  unfold Obligations.EncbEncryptsTheLatchedBlock
  exact ⟨by decide, fun s => exec_writeDout (exec_encb s)⟩

/-- Settles O9: DECB's answer is a block written to DOUT and a success. -/
theorem decbDecryptsTheLatchedBlock : Obligations.DecbDecryptsTheLatchedBlock := by
  unfold Obligations.DecbDecryptsTheLatchedBlock
  exact ⟨by decide, fun s => exec_writeDout (exec_decb s)⟩

/-- Settles O10: the second command's latches hold the first one's DOUT and key, and TEA_Enc and TEA_Dec are inverse. -/
theorem encbAndDecbUndoEachOther : Obligations.EncbAndDecbUndoEachOther := by
  unfold Obligations.EncbAndDecbUndoEachOther
  intro s t u v hkey hv0 hv1 hexec
  have hlatched : u.latches.block = { v0 := t.dout0, v1 := t.dout1 } := by rw [Latches.block, hv0, hv1]
  suffices hback : ({ v0 := v.dout0, v1 := v.dout1 } : Block) = s.latches.block from
    ⟨congrArg Block.v0 hback, congrArg Block.v1 hback⟩
  rcases hexec with ⟨hs, hu⟩ | ⟨hs, hu⟩
  · rw [dout_of_exec_decb hu, hkey, hlatched, dout_of_exec_encb hs, teaDec_teaEnc]
  · rw [dout_of_exec_encb hu, hkey, hlatched, dout_of_exec_decb hs, teaEnc_teaDec]

end Sys2Proof.Machine

end

/-! Proofs of the statements of 41_message_codec.md: framing (R79 to R83), double chaining (R84 to R87), unframing (R88
to R92), the codec's properties (R96), and the message commands MENC and MDEC (R93 to R95). -/

section

namespace Sys2Proof.Machine

/-! ### The header byte -/

/-- r0's bits 7:3 stand in the header's bits 7:3 (R80). -/
theorem headerByte_high (r0 : Byte) {s : Nat} (hs : s ≤ 7) :
    (headerByte r0 s).extractLsb' 3 5 = r0.extractLsb' 3 5 := by
  have hsalt : ∀ n : Nat, n < 8 → (BitVec.ofNat 8 n).extractLsb' 3 5 = 0#5 := by decide
  have hmask : (0xF8 : Byte).extractLsb' 3 5 = BitVec.allOnes 5 := by decide
  rw [headerByte, BitVec.extractLsb'_or, BitVec.extractLsb'_and, hmask, BitVec.and_allOnes,
    hsalt s (Nat.lt_succ_of_le hs), BitVec.or_zero]

/-- The salt length stands in the header's bits 2:0 (R80). -/
theorem headerByte_low (r0 : Byte) {s : Nat} (hs : s ≤ 7) : (headerByte r0 s).extractLsb' 0 3 = BitVec.ofNat 3 s := by
  have hsalt : ∀ n : Nat, n < 8 → (BitVec.ofNat 8 n).extractLsb' 0 3 = BitVec.ofNat 3 n := by decide
  have hmask : (0xF8 : Byte).extractLsb' 0 3 = 0#3 := by decide
  rw [headerByte, BitVec.extractLsb'_or, BitVec.extractLsb'_and, hmask, BitVec.and_zero, BitVec.zero_or,
    hsalt s (Nat.lt_succ_of_le hs)]

theorem headerByte_low_toNat (r0 : Byte) {s : Nat} (hs : s ≤ 7) :
    ((headerByte r0 s).extractLsb' 0 3).toNat = s := by
  rw [headerByte_low r0 hs, BitVec.toNat_ofNat, Nat.mod_eq_of_lt (Nat.lt_succ_of_le hs)]

/-- Two headers with the same salt length agree exactly when r0's bits 7:3 do. -/
theorem headerByte_eq_iff {r0 r0' : Byte} {s : Nat} (hs : s ≤ 7) :
    headerByte r0 s = headerByte r0' s ↔ r0.extractLsb' 3 5 = r0'.extractLsb' 3 5 := by
  have happend : ∀ r : Byte, headerByte r s = r.extractLsb' 3 5 ++ BitVec.ofNat 3 s := fun r => by
    rw [← headerByte_high r hs, ← headerByte_low r hs]
    exact (BitVec.extractLsb'_append_extractLsb' (w := 5) (len := 3)).symm
  constructor
  · intro h
    rw [← headerByte_high r0 hs, h, headerByte_high r0' hs]
  · intro h
    rw [happend, happend, h]

/-- The low three bits of a byte, masked out or extracted (R89). -/
theorem toNat_and_seven (b : Byte) : (b &&& 0x07).toNat = (b.extractLsb' 0 3).toNat := by
  rw [BitVec.toNat_and, BitVec.extractLsb'_toNat, Nat.shiftRight_zero]
  exact Nat.and_two_pow_sub_one_eq_mod b.toNat 3

/-! ### The parts of the frame -/

theorem frame_header (p : List Byte) (rnd : Draw) :
    (frame p rnd)[0]? = some (headerByte (rnd 0) (saltLen p.length)) := rfl

/-- The salt is bytes 1 .. s of the frame and of the draw (R81, R82). -/
theorem frame_salt (p : List Byte) (rnd : Draw) {i : Nat} (h1 : 1 ≤ i) (hs : i ≤ saltLen p.length) :
    (frame p rnd)[i]? = some (rnd i) := by
  obtain ⟨j, rfl⟩ := Nat.exists_eq_add_of_le' h1
  rw [frame, List.getElem?_cons_succ, List.getElem?_append_left (by simpa using hs), saltBytes_getElem? rnd hs]

/-- After header and salt come the seven zero-check bytes and the plaintext (R82). -/
theorem frame_drop_salt (p : List Byte) (rnd : Draw) :
    (frame p rnd).drop (1 + saltLen p.length) = List.replicate 7 0 ++ p := by
  rw [frame, Nat.add_comm, List.drop_succ_cons, List.drop_left' (saltBytes_length rnd _)]

theorem frame_drop_check (p : List Byte) (rnd : Draw) : (frame p rnd).drop (8 + saltLen p.length) = p := by
  have hsplit : 8 + saltLen p.length = 1 + saltLen p.length + 7 := by omega
  rw [hsplit, ← List.drop_drop, frame_drop_salt, List.drop_left' List.length_replicate]

theorem frame_check (p : List Byte) (rnd : Draw) {i : Nat} (hi : i < 7) :
    (frame p rnd)[1 + saltLen p.length + i]? = some 0 := by
  rw [← List.getElem?_drop, frame_drop_salt, List.getElem?_append_left (by simpa using hi),
    List.getElem?_replicate_of_lt hi]

theorem frame_plaintext (p : List Byte) (rnd : Draw) (i : Nat) :
    (frame p rnd)[8 + saltLen p.length + i]? = p[i]? := by
  rw [← List.getElem?_drop, frame_drop_check]

theorem headerSalt_frame (p : List Byte) (rnd : Draw) : headerSalt (frame p rnd) = saltLen p.length := by
  rw [headerSalt, toNat_and_seven]
  exact headerByte_low_toNat (rnd 0) (saltLen_le p.length)

theorem saltBytes_eq_iff {r r' : Draw} {s : Nat} :
    saltBytes r s = saltBytes r' s ↔ ∀ i, 1 ≤ i → i ≤ s → r i = r' i := by
  constructor
  · intro h i h1 hs
    obtain ⟨j, rfl⟩ := Nat.exists_eq_add_of_le' h1
    have hj := congrArg (·[j]?) h
    simpa only [saltBytes_getElem? _ (Nat.lt_of_succ_le hs), Option.some.injEq] using hj
  · intro h
    refine List.ext_getElem? fun j => ?_
    by_cases hj : j < s
    · rw [saltBytes_getElem? r hj, saltBytes_getElem? r' hj, h (j + 1) (Nat.succ_pos j) hj]
    · rw [List.getElem?_eq_none (by simpa using hj), List.getElem?_eq_none (by simpa using hj)]

/-- The part of the draw that a frame depends on: r0's bits 7:3 and the s salt bytes (R80, R81). -/
theorem frame_eq_iff {p : List Byte} {r r' : Draw} : frame p r = frame p r' ↔
    (r 0).extractLsb' 3 5 = (r' 0).extractLsb' 3 5 ∧ ∀ i, 1 ≤ i → i ≤ saltLen p.length → r i = r' i := by
  rw [frame, frame, List.cons.injEq, List.append_left_inj, headerByte_eq_iff (saltLen_le _), saltBytes_eq_iff]

/-! ### Unframing -/

theorem headerSalt_eq_saltOf (fb : List Byte) : headerSalt fb = Claims.saltOf fb := by
  cases fb <;> rfl

theorem saltOf_le (fb : List Byte) : Claims.saltOf fb ≤ 7 := by
  rw [Claims.saltOf, toNat_and_seven]
  exact Nat.le_of_lt_succ (BitVec.isLt _)

theorem zeroCheckOk_iff_checkBytesZero {fb : List Byte} {s : Nat} :
    zeroCheckOk fb s = true ↔ Claims.checkBytesZero fb s := zeroCheckOk_iff

/-- Unframing accepts exactly the frames with room for their salt and seven zero check bytes (R89 to R91). -/
theorem unframe_eq_ok_iff {fb p : List Byte} {l n : Nat} : unframe fb l = .ok (p, n) ↔
    Claims.saltOf fb ≤ l - 8 ∧ Claims.checkBytesZero fb (Claims.saltOf fb) ∧
      n = l - 8 - Claims.saltOf fb ∧ p = fb.drop (8 + Claims.saltOf fb) := by
  have hcases := unframe_cases fb l
  rw [headerSalt_eq_saltOf, zeroCheckOk_iff_checkBytesZero, ← Bool.not_eq_true, zeroCheckOk_iff_checkBytesZero]
    at hcases
  rcases hcases with ⟨hroom, h⟩ | ⟨-, hcheck, h⟩ | ⟨hroom, hcheck, h⟩ <;> rw [h]
  · simp [hroom]
  · simp [hcheck]
  · simp [hroom, hcheck, eq_comm, and_comm]

theorem unframe_eq_error {fb : List Byte} {l : Nat}
    (h : ¬ (Claims.saltOf fb ≤ l - 8 ∧ Claims.checkBytesZero fb (Claims.saltOf fb))) :
    unframe fb l = .error .integrityCheckFailed := by
  cases hu : unframe fb l with
  | error e => rw [unframe_error hu]
  | ok r =>
    obtain ⟨hroom, hcheck, -, -⟩ := unframe_eq_ok_iff.mp hu
    exact absurd ⟨hroom, hcheck⟩ h

theorem unframe_frame (p : List Byte) (rnd : Draw) :
    unframe (frame p rnd) (frame p rnd).length = .ok (p, p.length) := by
  have hlen : (frame p rnd).length = p.length + 8 + saltLen p.length := frame_length p rnd
  rw [unframe_eq_ok_iff, ← headerSalt_eq_saltOf, headerSalt_frame, frame_drop_check]
  exact ⟨by omega, fun i hi => frame_check p rnd hi, by omega, rfl⟩

/-! ### XOR of blocks -/

theorem Block.xor_xor_xor_comm (a b c d : Block) : (a.xor b).xor (c.xor d) = (a.xor c).xor (b.xor d) := by
  simp only [Block.xor, Block.mk.injEq]
  exact ⟨by ac_rfl, by ac_rfl⟩

/-- XOR with the same block cancels in a difference. -/
theorem Block.xor_xor_xor_left (a b c : Block) : (a.xor b).xor (a.xor c) = b.xor c := by
  rw [xor_xor_xor_comm, xor_self, zero_xor]

theorem Block.eq_of_xor_eq_zero {a b : Block} (h : a.xor b = Block.zero) : a = b := by
  have hcancel := Block.xor_cancel a b
  rw [h, zero_xor] at hcancel
  exact hcancel.symm

/-! ### Chaining, block by block -/

/-- ChainDec undoes ChainEnc on one block, and the chain states agree after it (R87). -/
theorem chainDecStep_chainEncStep (k : Key) (c : Chain) (p : Block) :
    chainDecStep k c (chainEncStep k c p).1 = (p, (chainEncStep k c p).2) := by
  simp only [chainDecStep, chainEncStep, teaDec_teaEnc, Block.xor_cancel]

theorem chainDec_chainEnc (k : Key) (c : Chain) (ps : List Block) : chainDec k c (chainEnc k c ps) = ps := by
  induction ps generalizing c with
  | nil => rfl
  | cons p ps ih => rw [chainEnc, chainDec, chainDecStep_chainEncStep, ih]

/-- The x_j that a chaining step leaves in PP, block by block (R84). -/
def chainXs (step : Chain → Block → Block × Chain) : Chain → List Block → List Block
  | _, [] => []
  | c, b :: bs => (step c b).2.pp :: chainXs step (step c b).2 bs

@[simp] theorem chainXs_length (step : Chain → Block → Block × Chain) (c : Chain) (bs : List Block) :
    (chainXs step c bs).length = bs.length := by
  induction bs generalizing c with
  | nil => rfl
  | cons b bs ih => simp [chainXs, ih]

/-- Half of the chain state on entry to block j: `b` before the first block, item j-1 of `l` before block j. -/
def onEntry (b : Block) (l : List Block) (j : Nat) : Block := (b :: l).getD j Block.zero

theorem onEntry_zero_block (l : List Block) (j : Nat) : onEntry Block.zero l j = Claims.before l j := by
  cases j <;> rfl

/-- The recurrence of R85, from any chain state. -/
theorem chainEnc_recurrence (k : Key) (c : Chain) (ps : List Block) {j : Nat} (hj : j < ps.length) :
    (chainXs (chainEncStep k) c ps)[j]? = ps[j]?.map (fun p => p.xor (onEntry c.pc (chainEnc k c ps) j)) ∧
    (chainEnc k c ps)[j]? = (chainXs (chainEncStep k) c ps)[j]?.map
      (fun x => teaEnc k (x.xor (onEntry c.pp (chainXs (chainEncStep k) c ps) j))) := by
  induction ps generalizing c j with
  | nil => exact absurd hj (Nat.not_lt_zero j)
  | cons p ps ih =>
    cases j with
    | zero => exact ⟨rfl, rfl⟩
    | succ j => exact ih (chainEncStep k c p).2 (Nat.lt_of_succ_lt_succ hj)

/-- The recurrence of R87, from any chain state. -/
theorem chainDec_recurrence (k : Key) (c : Chain) (bs : List Block) {j : Nat} (hj : j < bs.length) :
    (chainXs (chainDecStep k) c bs)[j]? =
      bs[j]?.map (fun b => (teaDec k b).xor (onEntry c.pp (chainXs (chainDecStep k) c bs) j)) ∧
    (chainDec k c bs)[j]? = (chainXs (chainDecStep k) c bs)[j]?.map (fun x => x.xor (onEntry c.pc bs j)) := by
  induction bs generalizing c j with
  | nil => exact absurd hj (Nat.not_lt_zero j)
  | cons b bs ih =>
    cases j with
    | zero => exact ⟨rfl, rfl⟩
    | succ j => exact ih (chainDecStep k c b).2 (Nat.lt_of_succ_lt_succ hj)

theorem bytesOf_blocksOf_frame (p : List Byte) (rnd : Draw) : bytesOf (blocksOf (frame p rnd)) = frame p rnd :=
  bytesOf_blocksOf ((frame_length p rnd).trans (frameLen_eq p.length))

/-- Decrypting what was encrypted gives the frame back (R87, R92). -/
theorem decodedFrame_codecEnc (k : Key) (p : List Byte) (rnd : Draw) :
    decodedFrame k (codecEnc k p rnd) = frame p rnd := by
  rw [decodedFrame, codecEnc, blocksOf_bytesOf, chainDec_chainEnc, bytesOf_blocksOf_frame]

theorem codecEnc_eq_iff {k : Key} {p : List Byte} {r r' : Draw} :
    codecEnc k p r = codecEnc k p r' ↔ frame p r = frame p r' := by
  constructor
  · intro h
    rw [← decodedFrame_codecEnc k p r, h, decodedFrame_codecEnc]
  · intro h
    rw [codecEnc, codecEnc, h]

theorem codecDec_codecEnc (k : Key) (p : List Byte) (rnd : Draw) :
    codecDec k (codecEnc k p rnd) = .ok (p, p.length) := by
  rw [codecDec, decodedFrame_codecEnc, codecEnc_length, ← frame_length p rnd, unframe_frame]

/-! ### What a changed ciphertext block does -/

/-- Item j of both lists is there, and the two differ by d. -/
def DifferAt (l l' : List Block) (j : Nat) (d : Block) : Prop :=
  ∃ p p', l[j]? = some p ∧ l'[j]? = some p' ∧ p'.xor p = d

@[simp] theorem differAt_cons_succ {a a' d : Block} {l l' : List Block} {j : Nat} :
    DifferAt (a :: l) (a' :: l') (j + 1) d ↔ DifferAt l l' j d := Iff.rfl

/-- Two decryption steps on their blocks give frame blocks that differ by the differences of the x_j and of PC. -/
theorem chainDecStep_xor (k : Key) (c c' : Chain) (b b' : Block) :
    (chainDecStep k c' b').1.xor (chainDecStep k c b).1 =
      ((chainDecStep k c' b').2.pp.xor (chainDecStep k c b).2.pp).xor (c'.pc.xor c.pc) :=
  Block.xor_xor_xor_comm _ _ _ _

/-- The x_j of two decryption steps differ by the differences of the decrypted blocks and of PP. -/
theorem chainDecStep_pp_xor (k : Key) (c c' : Chain) (b b' : Block) :
    (chainDecStep k c' b').2.pp.xor (chainDecStep k c b).2.pp =
      ((teaDec k b').xor (teaDec k b)).xor (c'.pp.xor c.pp) :=
  Block.xor_xor_xor_comm _ _ _ _

/-- The same blocks decrypted from two chain states: a difference of PP stays, one of PC reaches the first block alone
(R96). -/
theorem chainDec_differAt_of_states (k : Key) (c c' : Chain) (bs : List Block) {j : Nat} (hj : j < bs.length) :
    DifferAt (chainDec k c bs) (chainDec k c' bs) j
      (if j = 0 then (c'.pp.xor c.pp).xor (c'.pc.xor c.pc) else c'.pp.xor c.pp) := by
  induction bs generalizing c c' j with
  | nil => exact absurd hj (Nat.not_lt_zero j)
  | cons b bs ih =>
    have hpp := chainDecStep_pp_xor k c c' b b
    rw [Block.xor_self, Block.zero_xor] at hpp
    cases j with
    | zero =>
      refine ⟨_, _, rfl, rfl, ?_⟩
      rw [if_pos rfl, chainDecStep_xor, hpp]
    | succ j =>
      have hpc : (chainDecStep k c' b).2.pc.xor (chainDecStep k c b).2.pc = Block.zero := Block.xor_self b
      have hrest := ih (chainDecStep k c b).2 (chainDecStep k c' b).2 (Nat.lt_of_succ_lt_succ hj)
      rw [hpp, hpc, Block.xor_zero, ite_self] at hrest
      rw [if_neg (Nat.succ_ne_zero j)]
      exact hrest

/-- Changing the first ciphertext block from b to b' (R96). -/
theorem chainDec_differAt_of_head (k : Key) (c : Chain) (b b' : Block) (bs : List Block) {j : Nat}
    (hj : j < 1 + bs.length) :
    DifferAt (chainDec k c (b :: bs)) (chainDec k c (b' :: bs)) j
      (if j = 1 then ((teaDec k b).xor (teaDec k b')).xor (b.xor b') else (teaDec k b).xor (teaDec k b')) := by
  have hpp := chainDecStep_pp_xor k c c b b'
  rw [Block.xor_self, Block.xor_zero, Block.xor_comm (teaDec k b')] at hpp
  cases j with
  | zero =>
    refine ⟨_, _, rfl, rfl, ?_⟩
    rw [if_neg Nat.zero_ne_one, chainDecStep_xor, hpp, Block.xor_self, Block.xor_zero]
  | succ j =>
    have hpc : (chainDecStep k c b').2.pc.xor (chainDecStep k c b).2.pc = b.xor b' := Block.xor_comm b' b
    have hrest := chainDec_differAt_of_states k (chainDecStep k c b).2 (chainDecStep k c b').2 (bs := bs) (j := j)
      (by omega)
    rw [hpp, hpc] at hrest
    rw [chainDec, chainDec, differAt_cons_succ]
    simpa only [Nat.add_eq_right] using hrest

/-- Changing the ciphertext block after `pre` (R96). -/
theorem chainDec_differAt (k : Key) (c : Chain) (pre post : List Block) (b b' : Block) {j : Nat}
    (hj : j < pre.length + 1 + post.length) :
    DifferAt (chainDec k c (pre ++ b :: post)) (chainDec k c (pre ++ b' :: post)) j
      (if j < pre.length then Block.zero
       else if j = pre.length + 1 then ((teaDec k b).xor (teaDec k b')).xor (b.xor b')
       else (teaDec k b).xor (teaDec k b')) := by
  induction pre generalizing c j with
  | nil => simpa using chainDec_differAt_of_head k c b b' post (j := j) (by simpa using hj)
  | cons a pre ih =>
    cases j with
    | zero =>
      refine ⟨_, _, rfl, rfl, ?_⟩
      rw [if_pos (show 0 < (a :: pre).length from Nat.succ_pos _), Block.xor_self]
    | succ j =>
      have hrest := ih (chainDecStep k c a).2 (j := j) (by simp only [List.length_cons] at hj; omega)
      rw [List.cons_append, List.cons_append, chainDec, chainDec, differAt_cons_succ]
      simpa only [List.length_cons, Nat.succ_lt_succ_iff, Nat.add_right_cancel_iff] using hrest

/-- Different blocks decrypt to different blocks, so their difference is not zero. -/
theorem teaDec_xor_ne_zero (k : Key) {b b' : Block} (h : b ≠ b') : (teaDec k b).xor (teaDec k b') ≠ Block.zero :=
  fun hzero => h ((teaEncAndDecAreInverse k).2.2.2.injective (Block.eq_of_xor_eq_zero hzero))

/-! ### What the message commands' checks and answers say of a state -/

theorem mencRangesOk_iff_mencRanges {s : State} :
    mencRangesOk s.params.msgBytes s.latches = true ↔ Claims.mencRanges s := by
  rw [mencRangesOk_iff, frameLen_eq]
  rfl

theorem mdecDestOk_iff_not_overlapping {s : State} {n : Nat} :
    mdecDestOk s.params.msgBytes s.latches n = true ↔ s.latches.ldst.toNat + n ≤ s.params.msgBytes ∧
      ¬ Claims.overlapping s.latches.lsrc.toNat s.latches.lslen.toNat s.latches.ldst.toNat n :=
  mdecDestOk_iff

theorem readBytes_eq_some_iff_holdsBytes {s : State} {a n : Nat} {p : List Byte} :
    s.msg.readBytes a n = some p ↔ Claims.holdsBytes s a n p := Memory.readBytes_eq_some

/-- An error of a message command (R102). -/
theorem raise_messageFailed {e : ErrorCode} (he : e ≠ .badCommand) (s : State) :
    Claims.messageFailed e.code s (raise e s) :=
  ⟨raise_failedWith e s, raise_dlen e s he, raise_operandsKept e s, raise_doutKept e s, raise_msg e s, raise_draws e s⟩

/-- A message command that succeeded: its n result bytes at LDST and n in DLEN, `d` requests to the random source in
all, and nothing else changed (R59, R60). -/
def MessageStored (bytes : List Byte) (n d : Nat) (s t : State) : Prop :=
  Claims.holdsBytes t s.latches.ldst.toNat n bytes ∧ t.dlen.toNat = n ∧ Claims.succeeded s t ∧
    Claims.operandsKept s t ∧ Claims.doutKept s t ∧ t.draws = d ∧
    Claims.bytesKeptOutside s.latches.ldst.toNat n s t

/-- A destination range inside a legal MSG RAM is what lets DLEN hold the length (R7). -/
theorem messageStored_of_fits {bytes : List Byte} {n : Nat} (d : Nat) {s : State} (hlegal : s.params.legal = true)
    (hlen : bytes.length = n) (hfit : s.latches.ldst.toNat + n ≤ s.params.msgBytes) :
    MessageStored bytes n d s (complete none { storeMessage bytes n s with draws := d }) := by
  obtain ⟨-, -, -, hmax⟩ := Params.legal_iff.mp hlegal
  subst hlen
  refine ⟨⟨rfl, fun i hi => ?_⟩, ?_, ⟨rfl, rfl, rfl, rfl, rfl⟩, ⟨rfl, rfl, rfl, rfl, rfl, rfl, rfl, rfl, rfl, rfl⟩,
    ⟨rfl, rfl⟩, rfl, fun a ha => Memory.read_writeBytes_outside s.msg ha⟩
  · rw [List.getElem?_eq_getElem hi]
    exact Memory.read_writeBytes_inside s.msg s.latches.dstAt hi
  · exact (BitVec.toNat_ofNat _ 32).trans (Nat.mod_eq_of_lt (by omega))

/-! ### MENC -/

/-- MENC on success (R94). -/
theorem exec_menc_success {s : State} {p : List Byte} (hlegal : s.params.legal = true) (hranges : Claims.mencRanges s)
    (hsrc : Claims.holdsBytes s s.latches.lsrc.toNat s.latches.lslen.toNat p) :
    ∃ t, exec .menc s = .next t ∧
      MessageStored (codecEnc s.latches.lk p (Config.rngByte s.draws)) (8 * ((s.latches.lslen.toNat + 15) / 8))
        (s.draws + 1) s t := by
  have hexec : exec .menc s = .next (mencResult (Config.rngByte s.draws) p s) :=
    mencWith_success _ (mencRangesOk_iff_mencRanges.mpr hranges) (readBytes_eq_some_iff_holdsBytes.mpr hsrc)
  obtain ⟨-, hdst, -⟩ := hranges
  rw [mencResult, frameLen_eq] at hexec
  refine ⟨_, hexec, messageStored_of_fits _ hlegal ?_ hdst⟩
  rw [codecEnc_length, hsrc.1, frameLen_eq]

/-! ### MDEC -/

theorem lengthInvalid_eq_false {l : Nat} (hpos : l ≠ 0) (h8 : l % 8 = 0) : lengthInvalid l = false := by
  simp [lengthInvalid, hpos, h8]

/-- Past its length, source range and memory checks MDEC decodes (R95). -/
theorem exec_mdec_of_mdecSource {s : State} {c : List Byte} (h : Claims.mdecSource s c) :
    exec .mdec s = .next (mdecStore c s) := by
  obtain ⟨hpos, h8, hsrc, hc⟩ := h
  exact execMdec_decodes (lengthInvalid_eq_false hpos h8) (inRange_iff.mpr hsrc)
    (readBytes_eq_some_iff_holdsBytes.mpr hc)

theorem codecDec_of_mdecSource {s : State} {c : List Byte} (h : Claims.mdecSource s c) :
    codecDec s.latches.lk c = unframe (Claims.frameOf s c) s.latches.lslen.toNat := by
  obtain ⟨-, -, -, hlen, -⟩ := h
  rw [codecDec, Claims.frameOf, hlen]

/-- What MDEC decodes when the frame passes its checks (R91). -/
theorem codecDec_of_good_frame {s : State} {c : List Byte} (h : Claims.mdecSource s c)
    (hroom : Claims.saltOf (Claims.frameOf s c) ≤ s.latches.lslen.toNat - 8)
    (hcheck : Claims.checkBytesZero (Claims.frameOf s c) (Claims.saltOf (Claims.frameOf s c))) :
    codecDec s.latches.lk c = .ok ((Claims.frameOf s c).drop (8 + Claims.saltOf (Claims.frameOf s c)),
      s.latches.lslen.toNat - 8 - Claims.saltOf (Claims.frameOf s c)) := by
  rw [codecDec_of_mdecSource h, unframe_eq_ok_iff]
  exact ⟨hroom, hcheck, rfl, rfl⟩

/-- MDEC on success (R95). -/
theorem exec_mdec_success {s : State} {c p : List Byte} {n : Nat} (hlegal : s.params.legal = true)
    (hsrc : Claims.mdecSource s c) (hdec : codecDec s.latches.lk c = .ok (p, n))
    (hfit : s.latches.ldst.toNat + n ≤ s.params.msgBytes)
    (hoff : ¬ Claims.overlapping s.latches.lsrc.toNat s.latches.lslen.toNat s.latches.ldst.toNat n) :
    ∃ t, exec .mdec s = .next t ∧ MessageStored p n s.draws s t := by
  have hexec := exec_mdec_of_mdecSource hsrc
  rw [mdecStore_success hdec (mdecDestOk_iff_not_overlapping.mpr ⟨hfit, hoff⟩)] at hexec
  obtain ⟨-, h8, -, hlen, -⟩ := hsrc
  exact ⟨_, hexec, messageStored_of_fits s.draws hlegal (codecDec_length (hlen ▸ h8) hdec) hfit⟩

/-! ### The obligations -/

/-- Settles O11: rounding up to a multiple of 8. -/
theorem frameLengthIsMinimal : Obligations.FrameLengthIsMinimal := by
  unfold Obligations.FrameLengthIsMinimal
  refine fun n => ⟨rfl, saltLen_le n, frameLen_eq n, fun m h8 hm => by omega, ?_⟩
  rintro p rnd k rfl
  rw [frame_length, codecEnc_length, frameLen_eq]
  exact ⟨rfl, rfl⟩

/-- Settles O12, from the parts of the frame. -/
theorem frameLayout : Obligations.FrameLayout := by
  unfold Obligations.FrameLayout
  rintro p rnd s rfl
  have hs : saltLen p.length ≤ 7 := saltLen_le p.length
  refine ⟨⟨_, frame_header p rnd, headerByte_high _ hs, headerByte_low_toNat _ hs⟩, fun i => frame_salt p rnd,
    fun i => frame_check p rnd, fun i _ => frame_plaintext p rnd i, ?_⟩
  rw [frame_length, frameLen, saltLen]
  omega

/-- Settles O13: the chain state on entry to block j is x_(j-1) and c_(j-1). -/
theorem chainEncryptRecurrence : Obligations.ChainEncryptRecurrence := by
  unfold Obligations.ChainEncryptRecurrence
  intro k p rnd
  refine ⟨chainXs (chainEncStep k) Chain.start (blocksOf (frame p rnd)),
    chainEnc k Chain.start (blocksOf (frame p rnd)), chainXs_length _ _ _, chainEnc_length _ _ _, fun j hj => ?_, rfl,
    bytesOf_blocksOf_frame p rnd⟩
  have hstep := chainEnc_recurrence k Chain.start _ hj
  simpa only [Chain.start, onEntry_zero_block] using hstep

/-- Settles O14: the chain state on entry to block j is x_(j-1) and c_(j-1). -/
theorem chainDecryptRecurrence : Obligations.ChainDecryptRecurrence := by
  unfold Obligations.ChainDecryptRecurrence
  intro k c h8
  have hwhole : c.length = 8 * (c.length / 8) := (Nat.mul_div_cancel' (Nat.dvd_of_mod_eq_zero h8)).symm
  refine ⟨chainXs (chainDecStep k) Chain.start (blocksOf c), chainDec k Chain.start (blocksOf c), chainXs_length _ _ _,
    chainDec_length _ _ _, fun j hj => ?_, rfl, bytesOf_blocksOf hwhole⟩
  have hstep := chainDec_recurrence k Chain.start _ hj
  simpa only [Chain.start, onEntry_zero_block] using hstep

/-- Settles O15, from one block to lists of them. -/
theorem chainDecInvertsChainEnc : Obligations.ChainDecInvertsChainEnc := by
  unfold Obligations.ChainDecInvertsChainEnc
  exact fun k c => ⟨chainDecStep_chainEncStep k c, chainDec_chainEnc k c⟩

/-- Settles O16: decryption gives the frame back, and unframing takes the plaintext out of it. -/
theorem codecRoundTrip : Obligations.CodecRoundTrip := by
  unfold Obligations.CodecRoundTrip
  exact codecDec_codecEnc

/-- Settles O17: the frame depends on no more of the draw. -/
theorem drawLowBitsAreDiscarded : Obligations.DrawLowBitsAreDiscarded := by
  unfold Obligations.DrawLowBitsAreDiscarded
  intro k p r r' hhigh hsalt
  exact codecEnc_eq_iff.mpr (frame_eq_iff.mpr ⟨hhigh, hsalt⟩)

/-- Settles O18: equal ciphertexts decrypt to equal frames, which hold r0's bits 7:3 and the salt bytes. -/
theorem differentDrawsGiveDifferentCiphertexts : Obligations.DifferentDrawsGiveDifferentCiphertexts := by
  unfold Obligations.DifferentDrawsGiveDifferentCiphertexts
  intro k p r r' hdiffer heq
  obtain ⟨hhigh, hsalt⟩ := frame_eq_iff.mp (codecEnc_eq_iff.mp heq)
  rcases hdiffer with h | ⟨i, h1, hs, h⟩
  · exact h hhigh
  · exact h (hsalt i h1 hs)

/-- Settles O19, from the difference that the changed block makes and that of the chain states after it. -/
theorem tamperedBlockChangesTheFrame : Obligations.TamperedBlockChangesTheFrame := by
  unfold Obligations.TamperedBlockChangesTheFrame
  rintro k st pre post c c' d hne rfl
  exact ⟨teaDec_xor_ne_zero k hne, fun j hj => chainDec_differAt k st pre post c c' hj⟩

/-- Settles O20: what unframing accepts, and 8 divides n + 8 + s for a salt length s of at most 7. -/
theorem acceptedFramesAreProducible : Obligations.AcceptedFramesAreProducible := by
  unfold Obligations.AcceptedFramesAreProducible
  intro fb p n hpos h8 hok
  obtain ⟨hroom, hcheck, hn, hp⟩ := unframe_eq_ok_iff.mp hok
  have hs : Claims.saltOf fb ≤ 7 := saltOf_le fb
  refine ⟨hroom, hcheck, hn, hp, ?_, by omega⟩
  rw [hp, List.length_drop]
  omega

/-- Settles O21: MENC's success stores the ciphertext, whose length is L. -/
theorem mencStoresTheCiphertext : Obligations.MencStoresTheCiphertext := by
  unfold Obligations.MencStoresTheCiphertext
  exact ⟨by decide, fun s p hlegal hranges hsrc => exec_menc_success hlegal hranges hsrc⟩

/-- Settles O22: the range checks come before MemRead and the draw. -/
theorem mencRangeError : Obligations.MencRangeError := by
  unfold Obligations.MencRangeError
  intro s hbad
  have hranges : mencRangesOk s.params.msgBytes s.latches = false :=
    Bool.eq_false_iff.mpr (mencRangesOk_iff_mencRanges.not.mpr hbad)
  exact ⟨_, mencWith_rangeError _ hranges, raise_messageFailed (e := .rangeError) (by decide) s⟩

/-- Settles O24: MDEC's success stores what the good frame unframes to. -/
theorem mdecStoresThePlaintext : Obligations.MdecStoresThePlaintext := by
  unfold Obligations.MdecStoresThePlaintext
  refine ⟨by decide, ?_⟩
  rintro s c fb n hlegal hsrc rfl hroom hcheck rfl hfit hoff
  exact exec_mdec_success hlegal hsrc (codecDec_of_good_frame hsrc hroom hcheck) hfit hoff

/-- Settles O25: the length check is MDEC's first. -/
theorem mdecInvalidLength : Obligations.MdecInvalidLength := by
  unfold Obligations.MdecInvalidLength
  intro s hbad
  exact ⟨_, execMdec_invalidLength (lengthInvalid_iff.mpr hbad),
    raise_messageFailed (e := .invalidLength) (by decide) s⟩

/-- Settles O26: the source range check is MDEC's second. -/
theorem mdecSourceRangeError : Obligations.MdecSourceRangeError := by
  unfold Obligations.MdecSourceRangeError
  intro s hpos h8 hbad
  have hrange : inRange s.params.msgBytes s.latches.srcAt s.latches.len = false :=
    Bool.eq_false_iff.mpr (inRange_iff.not.mpr (Nat.not_le.mpr hbad))
  exact ⟨_, execMdec_rangeError (lengthInvalid_eq_false hpos h8) hrange,
    raise_messageFailed (e := .rangeError) (by decide) s⟩

/-- Settles O27: unframing fails before the destination is looked at. -/
theorem mdecIntegrityCheckFailed : Obligations.MdecIntegrityCheckFailed := by
  unfold Obligations.MdecIntegrityCheckFailed
  intro s c hsrc hbad
  have hdec : codecDec s.latches.lk c = .error .integrityCheckFailed := by
    rw [codecDec_of_mdecSource hsrc]
    refine unframe_eq_error fun hgood => ?_
    rcases hbad with hroom | ⟨-, hcheck⟩
    · exact Nat.not_le.mpr hroom hgood.1
    · exact hcheck hgood.2
  refine ⟨_, exec_mdec_of_mdecSource hsrc, ?_⟩
  rw [mdecStore_codecError hdec]
  exact raise_messageFailed (by decide) s

/-- Settles O28: the destination is checked once the good frame has given n. -/
theorem mdecDestinationRangeError : Obligations.MdecDestinationRangeError := by
  unfold Obligations.MdecDestinationRangeError
  rintro s c n hsrc hroom hcheck rfl hbad
  have hdest := Bool.eq_false_iff.mpr (mdecDestOk_iff_not_overlapping (s := s).not.mpr fun hgood =>
    hbad.elim (Nat.not_lt.mpr hgood.1) hgood.2)
  refine ⟨_, exec_mdec_of_mdecSource hsrc, ?_⟩
  rw [mdecStore_rangeError (codecDec_of_good_frame hsrc hroom hcheck) hdest]
  exact raise_messageFailed (by decide) s

/-- Settles O30: MENC's result is a source for MDEC, and decrypting it gives the plaintext back. -/
theorem mencThenMdecRestoresTheMessage : Obligations.MencThenMdecRestoresTheMessage := by
  unfold Obligations.MencThenMdecRestoresTheMessage
  intro s t u p hlegal hranges hp hexec hparams hmsg hlk hlsrc hlslen hfit hoff
  obtain ⟨t', hexec', ⟨hclen, hcbytes⟩, hdlen, -⟩ := exec_menc_success hlegal hranges hp
  obtain rfl : t' = t := Host.Outcome.next.inj (hexec'.symm.trans hexec)
  have hsrc : Claims.mdecSource u (codecEnc s.latches.lk p (Config.rngByte s.draws)) := by
    obtain ⟨-, hdst, -⟩ := hranges
    rw [Claims.mdecSource, Claims.holdsBytes, hparams, hmsg, hlsrc, hlslen, hdlen]
    exact ⟨by omega, Nat.mul_mod_right 8 _, hdst, hclen, hcbytes⟩
  have hdec : codecDec u.latches.lk (codecEnc s.latches.lk p (Config.rngByte s.draws)) =
      .ok (p, s.latches.lslen.toNat) := by
    rw [hlk, codecDec_codecEnc, hp.1]
  obtain ⟨v, hv, hbytes, hvlen, hsucc, -⟩ := exec_mdec_success (hparams ▸ hlegal) hsrc hdec hfit hoff
  exact ⟨v, hv, hbytes, BitVec.eq_of_toNat_eq hvlen, hsucc⟩

end Sys2Proof.Machine

end

/-! Proofs of the statements of 60_exceptions.md: what a failed command writes (R102), and a CMD write that races a
completion (R104). -/

section

namespace Sys2Proof.Machine

/-! ### A failed command -/

theorem complete_none_not_err (s : State) : (complete none s).status.err ≠ true := by
  simp

/-- MDEC after MemRead ends with ERR = 1 only by raising an error (R102). -/
theorem mdecStore_failed {c : List Byte} {s : State} (herr : (mdecStore c s).status.err = true) :
    ∃ e, e ≠ .badCommand ∧ mdecStore c s = raise e s := by
  rcases mdecStore_cases c s with ⟨-, h⟩ | ⟨p, n, -, -, h⟩ | ⟨p, n, -, -, h⟩ <;> rw [h] at herr ⊢
  · exact ⟨_, by decide, rfl⟩
  · exact ⟨_, by decide, rfl⟩
  · exact absurd herr (complete_none_not_err _)

/-- A command ends with ERR = 1 only by raising an error, which is not an illegal word's (R102). -/
theorem exec_failed {i : Instr} {s t : State} (h : exec i s = .next t) (herr : t.status.err = true) :
    ∃ e, e ≠ .badCommand ∧ t = raise e s := by
  cases i with
  | encb =>
    cases h
    exact absurd herr (complete_none_not_err _)
  | decb =>
    cases h
    exact absurd herr (complete_none_not_err _)
  | menc =>
    simp only [exec, execMenc] at h
    rcases mencWith_cases (Config.rngByte s.draws) s with
      ⟨-, h'⟩ | ⟨-, -, h'⟩ | ⟨-, p, -, h'⟩ <;> rw [h'] at h <;> cases h
    · exact ⟨_, by decide, rfl⟩
    · exact absurd herr (complete_none_not_err _)
  | mdec =>
    simp only [exec] at h
    rcases execMdec_cases s with
      ⟨-, h'⟩ | ⟨-, -, h'⟩ | ⟨-, -, -, h'⟩ | ⟨-, -, c, -, h'⟩ <;> rw [h'] at h <;> cases h
    · exact ⟨_, by decide, rfl⟩
    · exact ⟨_, by decide, rfl⟩
    · exact mdecStore_failed herr

/-! ### A perform step after an overrun -/

/-- `s` with OVR = 1, which is all that a CMD write does while BUSY = 1 (R57). -/
def State.overrun (s : State) : State := { s with status := s.status.overrun }

/-- Completion leaves OVR as it is (R59), so an overrun before it is one after it. -/
theorem raise_overrun (e : ErrorCode) (s : State) : raise e s.overrun = (raise e s).overrun := by
  cases e <;> rfl

theorem mdecStore_overrun (c : List Byte) (s : State) : mdecStore c s.overrun = (mdecStore c s).overrun := by
  rcases mdecStore_cases c s with ⟨hc, h⟩ | ⟨p, n, hc, hd, h⟩ | ⟨p, n, hc, hd, h⟩ <;> rw [h]
  · rw [mdecStore_codecError (s := s.overrun) hc, raise_overrun]
  · rw [mdecStore_rangeError (s := s.overrun) hc hd, raise_overrun]
  · exact mdecStore_success (s := s.overrun) hc hd

/-- A command does not read STATUS: with OVR = 1 it completes as it would have, and OVR stays 1 (R59, R60). -/
theorem exec_overrun {i : Instr} {s t : State} (h : exec i s = .next t) : exec i s.overrun = .next t.overrun := by
  cases i with
  | encb => cases h; exact exec_encb s.overrun
  | decb => cases h; exact exec_decb s.overrun
  | menc =>
    simp only [exec, execMenc] at h ⊢
    rcases mencWith_cases (Config.rngByte s.draws) s with
      ⟨hr, h'⟩ | ⟨-, -, h'⟩ | ⟨hr, p, hb, h'⟩ <;> rw [h'] at h <;> cases h
    · rw [← raise_overrun]
      exact mencWith_rangeError (s := s.overrun) _ hr
    · exact mencWith_success (s := s.overrun) _ hr hb
  | mdec =>
    simp only [exec] at h ⊢
    rcases execMdec_cases s with
      ⟨hl, h'⟩ | ⟨hl, hr, h'⟩ | ⟨-, -, -, h'⟩ | ⟨hl, hr, c, hb, h'⟩ <;> rw [h'] at h <;> cases h
    · rw [← raise_overrun]
      exact execMdec_invalidLength (s := s.overrun) hl
    · rw [← raise_overrun]
      exact execMdec_rangeError (s := s.overrun) hl hr
    · rw [← mdecStore_overrun]
      exact execMdec_decodes (s := s.overrun) hl hr hb

theorem perform_overrun {s t : State} (h : perform s = .next t) : perform s.overrun = .next t.overrun := by
  rcases perform_cases h with ⟨i, hdec, hexec⟩ | ⟨e, hdec, rfl⟩
  · exact (perform_of_decode_ok (s := s.overrun) hdec).trans (exec_overrun hexec)
  · rw [← raise_overrun]
    exact perform_of_decode_error (s := s.overrun) hdec

theorem perform_not_busy {s t : State} (h : perform s = .next t) : t.status.busy = false := by
  obtain ⟨o, hstatus, -⟩ := (perform_effect h).status
  rw [hstatus, completed_busy]

/-! ### The obligations -/

/-- Settles O33: a command fails only by raising an error, and raising one writes STATUS and, but for BAD_COMMAND,
DLEN. -/
theorem failedCommandsWriteNothingElse : Obligations.FailedCommandsWriteNothingElse := by
  unfold Obligations.FailedCommandsWriteNothingElse
  constructor
  · intro i s t h herr
    obtain ⟨e, hcommand, rfl⟩ := exec_failed h herr
    exact ⟨raise_operandsKept e s, raise_msg e s, raise_doutKept e s, raise_draws e s, raise_dlen e s hcommand⟩
  · intro s e hdec
    exact ⟨_, perform_of_decode_error hdec, raise_failedWith .badCommand s, raise_operandsKept .badCommand s,
      raise_doutKept .badCommand s, raise_badCommand_dlen s, raise_msg .badCommand s, raise_draws .badCommand s⟩

/-- Settles O40: after the completion BUSY = 0 and the write issues; before it the write is an overrun, which the
perform step carries to its end. -/
theorem cmdWriteRacingACompletion : Obligations.CmdWriteRacingACompletion := by
  unfold Obligations.CmdWriteRacingACompletion
  intro s t w hbusy hperf
  constructor
  · refine ⟨issue w t, ?_, rfl, rfl, rfl⟩
    rw [hostAccess_regWrite_cmd, writeCmd_idle w (perform_not_busy hperf)]
  · exact ⟨s.overrun, cmdWriteWhileBusySetsOvr s w hbusy, perform_overrun hperf⟩

end Sys2Proof.Machine

end

/-! Proofs of the statements of 70_reset_and_hazards.md: reset and the first commands after it (R113, R115, R116), bytes
never written (R114), MSG RAM while a message command is in flight (R118), and bounded progress (R122, R123). -/

section

namespace Sys2Proof.Machine

/-! ### Host accesses to MSG RAM, by what the tests of R118 and R114 find -/

/-- R118's test comes first, for a read and for a write (log 11). -/
theorem hostAccess_msg_inFlight {x : HostAccess} {s : State} (hmsg : Claims.isMsgAccess x = true)
    (hflight : messageInFlight s = true) : hostAccess x s = .fault .msgAccessInFlight := by
  cases x with
  | regRead o => cases hmsg
  | regWrite o w => cases hmsg
  | msgReadB a => exact if_pos hflight
  | msgWriteB a b => exact if_pos hflight
  | msgReadW a => exact if_pos hflight
  | msgWriteW a w => exact if_pos hflight

theorem hostAccess_msgReadB_unwritten {s : State} {a : Nat} (hidle : messageInFlight s = false)
    (hb : s.msg.read a = none) : hostAccess (.msgReadB a) s = .fault .hostReadUnwritten := by
  simp [hostAccess, hidle, hb]

theorem hostAccess_msgReadW_unwritten {s : State} {a : Nat} (hidle : messageInFlight s = false)
    (hw : s.msg.readWord a = none) : hostAccess (.msgReadW a) s = .fault .hostReadUnwritten := by
  simp [hostAccess, hidle, hw]

/-- R118's fault is no other access's: a read answers or faults by R114, and a write has its step. -/
theorem hostAccess_ne_msgAccessInFlight {x : HostAccess} {s : State} (hidle : messageInFlight s = false) :
    hostAccess x s ≠ .fault .msgAccessInFlight := by
  cases x with
  | regRead o => exact nofun
  | regWrite o w => exact nofun
  | msgReadB a =>
    cases hb : s.msg.read a with
    | none => rw [hostAccess_msgReadB_unwritten hidle hb]; exact nofun
    | some b => rw [hostAccess_msgReadB_written hidle hb]; exact nofun
  | msgWriteB a b => rw [hostAccess_msgWriteB_eq_next.mpr ⟨hidle, rfl, rfl⟩]; exact nofun
  | msgReadW a =>
    cases hw : s.msg.readWord a with
    | none => rw [hostAccess_msgReadW_unwritten hidle hw]; exact nofun
    | some w => rw [hostAccess_msgReadW_written hidle hw]; exact nofun
  | msgWriteW a w => rw [hostAccess_msgWriteW_eq_next.mpr ⟨hidle, rfl, rfl⟩]; exact nofun

theorem hostAccess_write_next {x : HostAccess} {s : State} (hidle : messageInFlight s = false)
    (hwrite : Claims.isRead x = false) : ∃ t, hostAccess x s = .next (t, none) := by
  cases x with
  | regRead o => cases hwrite
  | regWrite o w => exact ⟨_, rfl⟩
  | msgReadB a => cases hwrite
  | msgWriteB a b => exact ⟨_, hostAccess_msgWriteB_eq_next.mpr ⟨hidle, rfl, rfl⟩⟩
  | msgReadW a => cases hwrite
  | msgWriteW a w => exact ⟨_, hostAccess_msgWriteW_eq_next.mpr ⟨hidle, rfl, rfl⟩⟩

theorem Memory.readWord_of_readBytes_none {m : Memory} {a : Nat} (h : m.readBytes a 4 = none) :
    m.readWord a = none := by
  rw [Memory.readWord, h]

theorem Memory.readWord_of_readBytes_some {m : Memory} {a : Nat} {b0 b1 b2 b3 : Byte}
    (h : m.readBytes a 4 = some [b0, b1, b2, b3]) : m.readWord a = some (be32 b0 b1 b2 b3) := by
  rw [Memory.readWord, h]

/-! ### Reset -/

/-- A pending reset turn resets the engine, whatever else the machine was about to do (R113). -/
theorem step_of_resetTurn {s : State} {ts : List Turn} (h : s.turns = .reset :: ts) :
    step s = .next (resetEngine (takeTurn s)) := by
  simp only [step, systemStep, nextTurn, h, runTurn]

theorem engineTurn_idle {s : State} (h : s.status.busy = false) : engineTurn s = .next s := by
  simp [engineTurn, h]

theorem reset_status_toWord : State.reset.status.toWord = 0 := by
  decide

theorem reset_readReg (r : Reg) : State.reset.readReg r = 0 := by
  cases r <;> rfl

theorem reset_regRead (o : Nat) : regRead o State.reset = 0 := by
  cases hr : Reg.ofOffset o with
  | none => simp only [regRead, hr]
  | some r => simp only [regRead, hr, reset_readReg]

/-- MENC's ranges after reset: no source, and 8 bytes at offset 0, which every legal MSG RAM has (R7, R116). -/
theorem reset_mencRanges : Claims.mencRanges (issue 0x00000003 State.reset) := by
  obtain ⟨-, -, hmin, -⟩ := Params.legal_iff.mp reset_params_legal
  refine ⟨Nat.zero_le _, ?_, fun hoverlap => absurd hoverlap.1 (by decide)⟩
  exact (by decide : 0 + 8 * ((0 + 15) / 8) ≤ 16).trans hmin

theorem reset_holdsBytes_nil : Claims.holdsBytes (issue 0x00000003 State.reset) 0 0 [] :=
  ⟨rfl, fun _ hi => absurd hi (Nat.not_lt_zero _)⟩

theorem read_ne_none_of_holdsBytes {s : State} {a n i : Nat} {p : List Byte} (h : Claims.holdsBytes s a n p)
    (hi : i < n) : s.msg.read (a + i) ≠ none := by
  obtain ⟨rfl, hbytes⟩ := h
  rw [hbytes i hi, List.getElem?_eq_getElem hi]
  exact nofun

/-- MENC straight after reset is a success with an empty plaintext: the 8 bytes of the shortest frame at offset 0. -/
theorem reset_perform_menc : ∃ (t : State) (c : List Byte), perform (issue 0x00000003 State.reset) = .next t ∧
    Claims.holdsBytes t 0 8 c ∧ t.dlen = 8 ∧ t.status.err = false ∧ Claims.bytesKeptOutside 0 8 State.reset t := by
  obtain ⟨t, hexec, hbytes, hdlen, ⟨-, -, herr, -⟩, -, -, -, hkept⟩ :=
    exec_menc_success (s := issue 0x00000003 State.reset) reset_params_legal reset_mencRanges reset_holdsBytes_nil
  exact ⟨t, _, (perform_of_decode_ok (decode_encode .menc)).trans hexec, hbytes, BitVec.eq_of_toNat_eq hdlen, herr,
    hkept⟩

/-! ### Progress -/

theorem perform_done {s t : State} (h : perform s = .next t) : t.status.done = true := by
  obtain ⟨o, hstatus, -⟩ := (perform_effect h).status
  rw [hstatus, completed_done]

theorem core_run_one (s : State) : core.run 1 s = step s := by
  rw [core_run_succ]
  cases step s <;> rfl

theorem turns_of_nextTurn_none {s : State} (h : nextTurn s = none) : s.turns = [] := by
  cases hturns : s.turns with
  | nil => rfl
  | cons tn ts => simp [nextTurn, hturns] at h

/-- Only a pending turn is a reset; the default turns are the engine's and the hosts' (log 4). -/
theorem mem_turns_of_nextTurn_reset {s : State} (h : nextTurn s = some .reset) : Turn.reset ∈ s.turns := by
  cases hturns : s.turns with
  | nil => cases hb : s.status.busy <;> simp [nextTurn, hturns, hb] at h
  | cons tn ts =>
    obtain rfl : tn = .reset := by simpa [nextTurn, hturns] using h
    exact List.mem_cons_self

/-- A step takes the first pending turn, and no agent adds one (log 4). -/
theorem step_turns {s t : State} (h : step s = .next t) : t.turns = s.turns.tail := by
  rcases step_cases h with ⟨hnone, rfl⟩ | ⟨-, rfl⟩ | ⟨-, -, rfl⟩ | ⟨-, -, hperf⟩ |
    ⟨k, -, rfl | ⟨x, u, r, hs, -, hacc, rfl⟩⟩
  · rw [turns_of_nextTurn_none hnone, List.tail_nil]
  · rfl
  · rfl
  · exact (perform_effect hperf).turns
  · rfl
  · exact (hostAccess_agents hacc).2.2

/-- A command leaves flight by reset or by completing (R18, R19). -/
theorem step_done_of_busy_falls {s t : State} (h : step s = .next t) (hs : s.status.busy = true)
    (ht : t.status.busy = false) : nextTurn s = some .reset ∨ t.status.done = true := by
  rcases step_busy_falls h hs ht with hturn | hturn
  · simp only [step, systemStep, hturn, runTurn, engineTurn, takeTurn_status, hs, if_true] at h
    exact .inr (perform_done h)
  · exact .inl hturn

/-- Within k steps the run stops or the command in flight leaves flight, with DONE = 1 unless a pending reset can have
taken it away. -/
def LeavesFlightWithin (k : Nat) (s : State) : Prop :=
  ∃ n, n ≤ k ∧ ∀ t, core.run n s = .next t →
    t.status.busy = false ∧ (Turn.reset ∉ s.turns → t.status.done = true)

/-- A step that ends the flight whenever it has a next state is all that is needed. -/
theorem leavesFlightWithin_of_step {s : State} (k : Nat) (hs : s.status.busy = true)
    (h : ∀ t, step s = .next t → t.status.busy = false) : LeavesFlightWithin (k + 1) s := by
  refine ⟨1, Nat.le_add_left 1 k, fun t hrun => ?_⟩
  have hstep : step s = .next t := by rwa [core_run_one] at hrun
  refine ⟨h t hstep, fun hreset => ?_⟩
  exact (step_done_of_busy_falls hstep hs (h t hstep)).resolve_left (hreset ∘ mem_turns_of_nextTurn_reset)

theorem leavesFlightWithin_succ {s t : State} {k : Nat} (hstep : step s = .next t) (h : LeavesFlightWithin k t) :
    LeavesFlightWithin (k + 1) s := by
  obtain ⟨n, hn, hrun⟩ := h
  refine ⟨n + 1, Nat.succ_le_succ hn, fun u hu => ?_⟩
  rw [core_run_succ, hstep] at hu
  obtain ⟨hidle, hdone⟩ := hrun u hu
  exact ⟨hidle, fun hreset => hdone fun hmem => hreset (List.mem_of_mem_tail (step_turns hstep ▸ hmem))⟩

/-- A command in flight outlasts at most the pending turns: each step takes one, and with none left the engine moves
(R122, R123). -/
theorem leavesFlightWithin_turns {s : State} (ts : List Turn) (hturns : s.turns = ts) (hs : s.status.busy = true) :
    LeavesFlightWithin (ts.length + 1) s := by
  induction ts generalizing s with
  | nil =>
    refine leavesFlightWithin_of_step 0 hs fun t hstep => ?_
    rw [step_of_engineNext ⟨hs, .inl hturns⟩] at hstep
    exact perform_not_busy hstep
  | cons tn ts ih =>
    by_cases hflight : ∃ t, step s = .next t ∧ t.status.busy = true
    · obtain ⟨t, hstep, ht⟩ := hflight
      have htail : t.turns = ts := by rw [step_turns hstep, hturns, List.tail_cons]
      exact leavesFlightWithin_succ hstep (ih htail ht)
    · exact leavesFlightWithin_of_step _ hs fun t hstep =>
        Bool.eq_false_iff.mpr fun ht => hflight ⟨t, hstep, ht⟩

/-! ### The obligations -/

/-- Settles O23: past the range checks, MemRead over an unwritten byte faults. -/
theorem mencFaultsOnUnwrittenSource : Obligations.MencFaultsOnUnwrittenSource := by
  unfold Obligations.MencFaultsOnUnwrittenSource
  intro s hranges hunwritten
  exact mencWith_unwritten _ (mencRangesOk_iff_mencRanges.mpr hranges) (Memory.readBytes_eq_none.mpr hunwritten)

/-- Settles O29: past the length and source checks, MemRead over an unwritten byte faults. -/
theorem mdecFaultsOnUnwrittenSource : Obligations.MdecFaultsOnUnwrittenSource := by
  unfold Obligations.MdecFaultsOnUnwrittenSource
  intro s hpos h8 hsrc hunwritten
  exact execMdec_unwritten (lengthInvalid_eq_false hpos h8) (inRange_iff.mpr hsrc)
    (Memory.readBytes_eq_none.mpr hunwritten)

/-- Settles O42: the number of pending turns bounds the steps before the engine moves. -/
theorem issuedCommandsLeaveFlightOrTheRunStops : Obligations.IssuedCommandsLeaveFlightOrTheRunStops := by
  unfold Obligations.IssuedCommandsLeaveFlightOrTheRunStops
  exact fun s hs => leavesFlightWithin_turns s.turns rfl hs

/-- Settles O50: R118's test is `messageInFlight`, and only it gives this fault. -/
theorem msgAccessDuringMessageCommandFaults : Obligations.MsgAccessDuringMessageCommandFaults := by
  unfold Obligations.MsgAccessDuringMessageCommandFaults
  intro x s hmsg
  rw [← messageInFlight_iff, Bool.not_eq_true]
  exact ⟨hostAccess_msg_inFlight hmsg, fun hidle =>
    ⟨hostAccess_ne_msgAccessInFlight hidle, hostAccess_write_next hidle⟩⟩

/-- Settles O51: a word read is MemRead of four bytes. -/
theorem hostReadOfUnwrittenByteFaults : Obligations.HostReadOfUnwrittenByteFaults := by
  unfold Obligations.HostReadOfUnwrittenByteFaults
  intro s a hidle
  rw [← messageInFlight_iff, Bool.not_eq_true] at hidle
  refine ⟨hostAccess_msgReadB_unwritten hidle, fun b => hostAccess_msgReadB_written hidle, fun hunwritten => ?_,
    fun b0 b1 b2 b3 hbytes => ?_⟩
  · exact hostAccess_msgReadW_unwritten hidle
      (Memory.readWord_of_readBytes_none (Memory.readBytes_eq_none.mpr hunwritten))
  · exact hostAccess_msgReadW_written hidle
      (Memory.readWord_of_readBytes_some (readBytes_eq_some_iff_holdsBytes.mpr hbytes))

/-- Settles O56: the step is `resetEngine`. -/
theorem resetClearsEverything : Obligations.ResetClearsEverything := by
  unfold Obligations.ResetClearsEverything
  intro s ts hturns
  exact ⟨_, step_of_resetTurn hturns, rfl, reset_status_toWord, rfl, rfl, rfl, rfl, rfl, rfl, rfl, rfl, rfl, rfl, rfl,
    engineTurn_idle rfl, fun _ => rfl, rfl⟩

/-- Settles O57: every register is 0 after reset, and no agent has a step. -/
theorem resetStateIsIdle : Obligations.ResetStateIsIdle := by
  unfold Obligations.ResetStateIsIdle
  refine ⟨fun o => ?_, fun _ => rfl, rfl, rfl⟩
  rw [hostAccess, reset_regRead]

/-- Settles O58: each command with its operands latched from the reset registers. -/
theorem commandsRunStraightAfterReset : Obligations.CommandsRunStraightAfterReset := by
  unfold Obligations.CommandsRunStraightAfterReset
  refine ⟨?encb, ?menc, ?mdec⟩
  case encb =>
    refine ⟨_, (perform_of_decode_ok (decode_encode .encb)).trans (exec_encb _), ?_, ?_⟩
    · exact congrArg Block.v0 teaEnc_zero
    · exact congrArg Block.v1 teaEnc_zero
  case menc =>
    obtain ⟨t, c, hperf, hbytes, hdlen, herr, hkept⟩ := reset_perform_menc
    refine ⟨t, hperf, hdlen, herr, fun a ha => ?_, fun a ha => hkept a (.inr ha)⟩
    simpa only [Nat.zero_add] using read_ne_none_of_holdsBytes hbytes ha
  case mdec =>
    obtain ⟨t, hexec, ⟨-, -, herr, hecode, -⟩, -⟩ := mdecInvalidLength (issue 0x00000004 State.reset) (.inl rfl)
    exact ⟨t, (perform_of_decode_ok (decode_encode .mdec)).trans hexec, herr, hecode⟩

end Sys2Proof.Machine

end
